-- ==== Sys2Proof/Word.lean ====
section
/-! DEFINITION. The widths of the block: bytes, 32-bit words and 12-bit window offsets (00_scope.md R10, 10_state.md R30). -/

namespace Sys2Proof

/-- A byte, 0x00 to 0xFF (R10). -/
abbrev Byte := BitVec 8

/-- A 32-bit word: a register value, a command word, a key-schedule word (R10). -/
abbrev Word := BitVec 32

/-- A byte offset within the 4 KiB window: the port bus_addr (R30, R70). -/
abbrev Offset := BitVec 12

end Sys2Proof
end

