-- ==== Sys2Proof/Config.lean ====
section
/-! DEFINITION. The parameters of the hardware (00_scope.md R9) and the values the spec leaves free. -/

namespace Sys2Proof.Config

/-- Blocks in the message buffer, NBLK_MAX = 4 in this hardware (R9, D11). -/
def nblkMax : Nat := 4

/-- Largest LEN of a mode command, MAX_LEN = 16 * NBLK_MAX (R9). -/
def maxLen : Nat := 16 * nblkMax

/-- Largest LEN of a single-block command, BLK_MAX_LEN (R9, D13). -/
def blkMaxLen : Nat := 16

/-- Size of the register window in bytes (20_memory.md R70). -/
def windowBytes : Nat := 4096

/-- BASE, the system address of offset 0x000: a platform parameter the spec leaves OPEN (R9, D2; log entry 12). -/
opaque base : Nat

/-- The value of the n-th host read of MSG while BUSY = 1: "any 32-bit value" (70_reset_and_hazards.md R316, U2;
log entry 4). A free value: it has no body, so nothing can be proved of it. -/
opaque freeWord : Nat → Word

/-- No command has more engine phases than this: 52 key-expansion phases (AES-256), 4 * 15 block stages and FINISH
(10_state.md R48). Used as the fuel of a run to completion. -/
def maxPhases : Nat := 113

end Sys2Proof.Config
end

