-- ==== Sys2Proof/Syntax.lean ====
section
/-! DEFINITION. The ten commands of spec/opcode_table.json and the fixed sets of names the spec gives: operations,
modes, directions, key strengths and rejection causes. -/

namespace Sys2Proof

/-- The ten operations of 30_encoding.md R101. -/
inductive Op where
  | ecbEnc | ecbDec | cbcEnc | cbcDec
  | blkEnc128 | blkEnc192 | blkEnc256 | blkDec128 | blkDec192 | blkDec256
  deriving DecidableEq, Repr

/-- The mode of an operation: ECB, CBC or a single block (30_encoding.md R101, R106). -/
inductive Mode where
  | ecb | cbc | blk
  deriving DecidableEq, Repr

/-- The direction of an operation (30_encoding.md R101, R106). -/
inductive Dir where
  | enc | dec
  deriving DecidableEq, Repr

/-- The key strength: "Nk/Nb/Nr are always one of the three fixed triples" (00_scope.md R8). -/
inductive Strength where
  | k128 | k192 | k256
  deriving DecidableEq, Repr

/-- The cause codes of 60_exceptions.md R281 that are ever written. `none` is NONE, 0x0. -/
inductive Cause where
  | none | badCmd | badKsize | noKey | noIv | lenZero | lenMax
  deriving DecidableEq, Repr

/-- The commands: one constructor per row of the opcode table. The argument is the KSIZE field, CMD[5:4]: the key
strength of a mode command (R102), ignored by a single-block command (R103). -/
inductive Instr where
  /-- ECB_ENC, OP = 0x1 (43_modes.md R233). -/
  | ecbEnc (ksize : BitVec 2)
  /-- ECB_DEC, OP = 0x2 (R234). -/
  | ecbDec (ksize : BitVec 2)
  /-- CBC_ENC, OP = 0x3 (R235). -/
  | cbcEnc (ksize : BitVec 2)
  /-- CBC_DEC, OP = 0x4 (R236). -/
  | cbcDec (ksize : BitVec 2)
  /-- BLK_ENC128, OP = 0x5 (R237). -/
  | blkEnc128 (ksize : BitVec 2)
  /-- BLK_ENC192, OP = 0x6 (R238). -/
  | blkEnc192 (ksize : BitVec 2)
  /-- BLK_ENC256, OP = 0x7 (R239). -/
  | blkEnc256 (ksize : BitVec 2)
  /-- BLK_DEC128, OP = 0x8 (R240). -/
  | blkDec128 (ksize : BitVec 2)
  /-- BLK_DEC192, OP = 0x9 (R241). -/
  | blkDec192 (ksize : BitVec 2)
  /-- BLK_DEC256, OP = 0xA (R242). -/
  | blkDec256 (ksize : BitVec 2)
  deriving DecidableEq, Repr

/-- What the decoder makes of a command word: one of the ten commands, or a rejection by name (30_encoding.md R105). -/
inductive DecodeResult where
  | command (i : Instr)
  | reject (c : Cause)
  deriving DecidableEq, Repr

/-- A resolved command: the operation with its strength and its largest accepted LEN (30_encoding.md R106; the mode and
the direction of R106 are functions of the operation, `Op.mode` and `Op.dir`). -/
structure Resolved where
  op : Op
  strength : Strength
  maxLen : Nat
  deriving DecidableEq, Repr

/-- The outcome of `Decode` of 30_encoding.md R106: a resolved command or BADCMD or BADKSIZE. -/
inductive Resolution where
  | command (d : Resolved)
  | reject (c : Cause)
  deriving DecidableEq, Repr

end Sys2Proof
end

