-- ==== Sys2Proof/WellFormed.lean ====
section
/-! DEFINITION. Well-formed commands: a mode command whose KSIZE selects one of the three key strengths
(30_encoding.md R102). A single-block command ignores KSIZE, so every value of it is well formed (R103). An ill-formed
mode command is still a command word of its row: the machine rejects it with BADKSIZE (60_exceptions.md R282). -/

namespace Sys2Proof

/-- KSIZE codes 0b00, 0b01 and 0b10 select a strength; 0b11 is out of range (R102). -/
def ksizeInRange (ksize : BitVec 2) : Bool := ksize != 3#2

/-- The check of a command's fields (R102, R103). -/
def WellFormed : Instr → Bool
  | .ecbEnc ksize => ksizeInRange ksize
  | .ecbDec ksize => ksizeInRange ksize
  | .cbcEnc ksize => ksizeInRange ksize
  | .cbcDec ksize => ksizeInRange ksize
  | .blkEnc128 _ => true
  | .blkEnc192 _ => true
  | .blkEnc256 _ => true
  | .blkDec128 _ => true
  | .blkDec192 _ => true
  | .blkDec256 _ => true

end Sys2Proof
end

