-- ==== Sys2Proof/Decode.lean ====
section
/-! DEFINITION. Decoding of a command word, total on all 32-bit values (30_encoding.md R100 - R106), and the encoder. -/

namespace Sys2Proof

/-- OP, bits [3:0] of the command word (R100). -/
def opField (v : Word) : BitVec 4 := v.extractLsb' 0 4

/-- KSIZE, bits [5:4] (R100). -/
def ksizeField (v : Word) : BitVec 2 := v.extractLsb' 4 2

/-- RSV, bits [31:6], must be zero (R100, R104). -/
def rsvField (v : Word) : BitVec 26 := v.extractLsb' 6 26

/-- The operation codes of R101. -/
def Op.code : Op → BitVec 4
  | .ecbEnc => 0x1#4
  | .ecbDec => 0x2#4
  | .cbcEnc => 0x3#4
  | .cbcDec => 0x4#4
  | .blkEnc128 => 0x5#4
  | .blkEnc192 => 0x6#4
  | .blkEnc256 => 0x7#4
  | .blkDec128 => 0x8#4
  | .blkDec192 => 0x9#4
  | .blkDec256 => 0xA#4

/-- The mode of an operation (R101, R106). -/
def Op.mode : Op → Mode
  | .ecbEnc | .ecbDec => .ecb
  | .cbcEnc | .cbcDec => .cbc
  | .blkEnc128 | .blkEnc192 | .blkEnc256 | .blkDec128 | .blkDec192 | .blkDec256 => .blk

/-- The direction of an operation (R101, R106). -/
def Op.dir : Op → Dir
  | .ecbEnc | .cbcEnc | .blkEnc128 | .blkEnc192 | .blkEnc256 => .enc
  | .ecbDec | .cbcDec | .blkDec128 | .blkDec192 | .blkDec256 => .dec

/-- Nk, the key words of a strength (00_scope.md R8). -/
def Strength.nk : Strength → Nat
  | .k128 => 4
  | .k192 => 6
  | .k256 => 8

/-- Nr, the rounds of a strength (00_scope.md R8). -/
def Strength.nr : Strength → Nat
  | .k128 => 10
  | .k192 => 12
  | .k256 => 14

/-- The words of a strength's key schedule: Nb * (Nr + 1), that is 44, 52 or 60 (41_key_schedule.md R180). -/
def Strength.words (k : Strength) : Nat := 4 * (k.nr + 1)

/-- The key strength a KSIZE code selects for a mode command; 0b11 selects none (R102). -/
def strengthOf (ksize : BitVec 2) : Option Strength :=
  if ksize = 0b00#2 then some .k128
  else if ksize = 0b01#2 then some .k192
  else if ksize = 0b10#2 then some .k256
  else none

/-- The operation of a command. -/
def Instr.op : Instr → Op
  | .ecbEnc _ => .ecbEnc
  | .ecbDec _ => .ecbDec
  | .cbcEnc _ => .cbcEnc
  | .cbcDec _ => .cbcDec
  | .blkEnc128 _ => .blkEnc128
  | .blkEnc192 _ => .blkEnc192
  | .blkEnc256 _ => .blkEnc256
  | .blkDec128 _ => .blkDec128
  | .blkDec192 _ => .blkDec192
  | .blkDec256 _ => .blkDec256

/-- The KSIZE field of a command. -/
def Instr.ksize : Instr → BitVec 2
  | .ecbEnc k | .ecbDec k | .cbcEnc k | .cbcDec k => k
  | .blkEnc128 k | .blkEnc192 k | .blkEnc256 k => k
  | .blkDec128 k | .blkDec192 k | .blkDec256 k => k

/-- Decode of a command word: BADCMD when a reserved bit is set (R104) or the OP is reserved (R105), otherwise the
command of the OP's row with its KSIZE field (R101). A mode command with KSIZE = 0b11 is the command of its row; its
meaning rejects it with BADKSIZE (log entry 11). -/
def decode (v : Word) : DecodeResult :=
  if rsvField v ≠ 0#26 then .reject .badCmd
  else if opField v = 0x1#4 then .command (.ecbEnc (ksizeField v))
  else if opField v = 0x2#4 then .command (.ecbDec (ksizeField v))
  else if opField v = 0x3#4 then .command (.cbcEnc (ksizeField v))
  else if opField v = 0x4#4 then .command (.cbcDec (ksizeField v))
  else if opField v = 0x5#4 then .command (.blkEnc128 (ksizeField v))
  else if opField v = 0x6#4 then .command (.blkEnc192 (ksizeField v))
  else if opField v = 0x7#4 then .command (.blkEnc256 (ksizeField v))
  else if opField v = 0x8#4 then .command (.blkDec128 (ksizeField v))
  else if opField v = 0x9#4 then .command (.blkDec192 (ksizeField v))
  else if opField v = 0xA#4 then .command (.blkDec256 (ksizeField v))
  else .reject .badCmd

/-- The command word of a command: RSV = 0, KSIZE in bits [5:4], OP in bits [3:0] (R100, R101). -/
def encode (i : Instr) : Word := 0#26 ++ i.ksize ++ i.op.code

/-- A mode command of an operation: its strength from KSIZE, LEN up to MAX_LEN; KSIZE = 0b11 is BADKSIZE (R102, R106). -/
def resolveMode (op : Op) (ksize : BitVec 2) : Resolution :=
  match strengthOf ksize with
  | some k => .command ⟨op, k, Config.maxLen⟩
  | none => .reject .badKsize

/-- A single-block command: its strength from the opcode, LEN up to 16, KSIZE ignored (R103, R106). -/
def resolveBlk (op : Op) (k : Strength) : Resolution := .command ⟨op, k, Config.blkMaxLen⟩

/-- The resolution of a command (R102, R103, R106). -/
def Instr.resolve : Instr → Resolution
  | .ecbEnc ksize => resolveMode .ecbEnc ksize
  | .ecbDec ksize => resolveMode .ecbDec ksize
  | .cbcEnc ksize => resolveMode .cbcEnc ksize
  | .cbcDec ksize => resolveMode .cbcDec ksize
  | .blkEnc128 _ => resolveBlk .blkEnc128 .k128
  | .blkEnc192 _ => resolveBlk .blkEnc192 .k192
  | .blkEnc256 _ => resolveBlk .blkEnc256 .k256
  | .blkDec128 _ => resolveBlk .blkDec128 .k128
  | .blkDec192 _ => resolveBlk .blkDec192 .k192
  | .blkDec256 _ => resolveBlk .blkDec256 .k256

/-- `Decode` of R106: a resolved command, or BADCMD or BADKSIZE. -/
def decodeCommand (v : Word) : Resolution :=
  match decode v with
  | .command i => i.resolve
  | .reject c => .reject c

/-- The command the decoder reads from a table word: the word's bits, any bit at or above `nbits` zero. The command word
is one 32-bit bus datum, so no byte order enters (R100). -/
def decodeTableWord (nbits w : Nat) : Option Instr :=
  match decode (BitVec.ofNat 32 (w % 2 ^ nbits)) with
  | .command i => some i
  | .reject _ => none

end Sys2Proof
end

