-- ==== Sys2Proof/Machine/State.lean ====
section
/-! DEFINITION. The state of uAES CORE as plain data (10_state.md), the host inputs it reads, and reset (R310). -/

namespace Sys2Proof.Machine

/-- Four bytes a0 .. a3: a column of the state block, or an AES word with its first byte first (20_memory.md R78). -/
structure Column where
  a0 : Byte
  a1 : Byte
  a2 : Byte
  a3 : Byte
  deriving DecidableEq, Repr

/-- A 16-byte block as the 4 x 4 matrix in column-major order: byte 4c + r is row r of column c (10_state.md R45). -/
structure Block where
  c0 : Column
  c1 : Column
  c2 : Column
  c3 : Column
  deriving DecidableEq, Repr

/-- The key schedule W[0..59] (10_state.md R46). -/
abbrev Schedule := Vector Word 60

/-- The bytes of KEY, IV and MSG, keyed by their window offset (20_memory.md R71, R74): strictly rising offsets, no
zero byte listed. An unlisted offset reads 0x00, the reset value of every byte (R31 - R33; log entry 8). -/
abbrev Memory := List Host.Cell

/-- The sequencer's phases (10_state.md R48). -/
inductive Phase where
  /-- No command in flight. -/
  | idle
  /-- Key expansion, computing W[i]. -/
  | expand (i : Nat)
  /-- Transforming block b, at stage k of the single-block state machine. -/
  | block (b k : Nat)
  /-- Writing the last result and completing. -/
  | finish
  deriving DecidableEq, Repr

/-- One presented host access: the ports bus_we, bus_addr, bus_size, bus_wdata (10_state.md R30). -/
structure Access where
  we : Bool
  addr : Offset
  size : BitVec 2
  wdata : Word
  deriving DecidableEq, Repr

/-- The answer to the last host access: the ports bus_ack, bus_err and bus_rdata (10_state.md R30). A BusError carries no
data (93_implementation_defined.md U4). -/
inductive Response where
  /-- No access has been answered since reset. -/
  | idle
  | readOk (rdata : Word)
  | writeOk
  | busError
  deriving DecidableEq, Repr

/-- One host input. `quiet` says how many engine phases go by after it before the host's next input takes effect; `none`
says the host leaves the engine alone until it is IDLE (log entry 2). -/
inductive Input where
  /-- A bus access (20_memory.md R72): the host forms WR and RD, or an illegal width or alignment. -/
  | access (a : Access) (quiet : Option Nat)
  /-- POLL off, mask, value (30_encoding.md R108): a read repeated until (data & mask) = value. -/
  | poll (off : Offset) (mask value : Word) (quiet : Option Nat)
  /-- WAITIRQ (30_encoding.md R108): wait until the irq output is 1, without a bus access. -/
  | waitIrq
  /-- A rising edge of clk with rst_n = 0 (70_reset_and_hazards.md R310). -/
  | resetEdge
  /-- Clock gating or power-down: "what state survives them is not specified" (60_exceptions.md R294, U16). -/
  | powerEvent
  deriving DecidableEq, Repr

/-- The registers of the offset map (20_memory.md R71). -/
inductive Reg where
  | cmd | status | ctrl | len | loaded
  | key (k : Nat)
  | iv (k : Nat)
  | msg (k : Nat)
  | reserved
  deriving DecidableEq, Repr

/-- The whole state of the block, with the model's own fields last. -/
structure State where
  /-- The bytes of KEY, IV and MSG (10_state.md R31 - R33). -/
  mem : Memory
  /-- LEN (R34). -/
  len : Word
  /-- CTRL.IRQEN (R35). -/
  irqEn : Bool
  /-- STATUS.BUSY (R36). -/
  busy : Bool
  /-- STATUS.DONE (R37). -/
  done : Bool
  /-- STATUS.ERR (R38). -/
  err : Bool
  /-- STATUS.CAUSE (R39). -/
  cause : Cause
  /-- LOADED.KEYW (R41). -/
  keyw : BitVec 8
  /-- LOADED.IVW (R42). -/
  ivw : BitVec 4
  /-- The state block st (R45). -/
  st : Block
  /-- The key schedule W (R46). -/
  w : Schedule
  /-- The chaining register (R47). -/
  chain : Block
  /-- The sequencer (R48). -/
  seq : Phase
  /-- The latched OP (R49). -/
  op : Op
  /-- The latched Nk and Nr (R49, R8). -/
  strength : Strength
  /-- The latched nblk (R49). -/
  nblk : Nat
  /-- The latched len (R49). -/
  latchedLen : Word
  /-- MODEL: the host's pending inputs, oldest first (20_memory.md R81; log entry 1). -/
  inputs : List Input
  /-- MODEL: engine phases before the host's next input, of the input being served (log entry 2). -/
  quiet : Option Nat
  /-- MODEL: the answer to the last host access (R30; log entry 5). -/
  resp : Response
  /-- MODEL: how many free values have been drawn (log entry 4). -/
  freeCount : Nat
  deriving DecidableEq, Repr

/-- Why the machine stops. No command's meaning raises one. -/
inductive Fault where
  /-- A host write of KEY, IV or MSG at this offset while BUSY = 1. Raised by the host write operation
  (`hostWrite`). "A model treats such a write as a fault of the run" (70_reset_and_hazards.md R315, U1). Safe: the
  model admits no claim about such runs. -/
  | operandWriteWhileBusy (off : Offset)
  deriving DecidableEq, Repr

/-- Why the machine gives no meaning. -/
inductive Refusal where
  /-- An instruction without a meaning yet. No arm uses it. Safe. -/
  | notModelled (mnemonic : String)
  /-- Clock gating or power-down (60_exceptions.md R294, U16: "refuse"). Raised by `step` on that input. Safe. -/
  | powerEvent
  deriving DecidableEq, Repr

/-- Four zero bytes. -/
def Column.zero : Column := ⟨0#8, 0#8, 0#8, 0#8⟩

/-- Sixteen zero bytes. -/
def Block.zero : Block := ⟨Column.zero, Column.zero, Column.zero, Column.zero⟩

/-- Sixty zero words. -/
def Schedule.blank : Schedule := Vector.replicate 60 0#32

/-- The block right after reset (70_reset_and_hazards.md R310). The internal storage and the latched fields have
unspecified values there; the ones given here are a DESIGN CHOICE (log entry 3). -/
def State.reset : State where
  mem := []
  len := 0#32
  irqEn := false
  busy := false
  done := false
  err := false
  cause := .none
  keyw := 0#8
  ivw := 0#4
  st := Block.zero
  w := Schedule.blank
  chain := Block.zero
  seq := .idle
  op := .ecbEnc
  strength := .k128
  nblk := 0
  latchedLen := 0#32
  inputs := []
  quiet := none
  resp := .idle
  freeCount := 0

end Sys2Proof.Machine
end

