-- ==== Sys2Proof/Machine/Galois.lean ====
section
/-! DEFINITION. GF(2^8) arithmetic and the substitution layer (40_gf_sbox.md R130 - R140). -/

namespace Sys2Proof.Machine

/-- Multiplication by {02} modulo x^8 + x^4 + x^3 + x + 1 (R132). -/
def xtime (b : Byte) : Byte := if b.getLsbD 7 then (b <<< 1) ^^^ 0x1B#8 else b <<< 1

/-- Powers of {02}: `xtimePow k b` is xtime^k(b) (R133). -/
def xtimePow : Nat → Byte → Byte
  | 0, b => b
  | k + 1, b => xtime (xtimePow k b)

/-- Field multiplication (R134). -/
def gmul (a b : Byte) : Byte :=
  (List.range 8).foldl (fun p i => if b.getLsbD i then p ^^^ xtimePow i a else p) 0#8

/-- The multiplicative inverse: the byte y with gmul(b, y) = {01}, and 0x00 for 0x00, which has none (R136). -/
def ginv (b : Byte) : Byte :=
  (((List.range 256).map (BitVec.ofNat 8)).find? (fun y => gmul b y == 1#8)).getD 0#8

/-- The S-box affine map (R137). -/
def affine (x : Byte) : Byte :=
  x ^^^ x.rotateLeft 1 ^^^ x.rotateLeft 2 ^^^ x.rotateLeft 3 ^^^ x.rotateLeft 4 ^^^ 0x63#8

/-- The inverse of the affine map (R137). -/
def affineInv (y : Byte) : Byte :=
  y.rotateLeft 1 ^^^ y.rotateLeft 3 ^^^ y.rotateLeft 6 ^^^ 0x05#8

/-- The S-box table of R138, one row of sixteen bytes a line, column 0 first. -/
def sboxRows : List (BitVec 128) := [
  0x637c777bf26b6fc53001672bfed7ab76#128,
  0xca82c97dfa5947f0add4a2af9ca472c0#128,
  0xb7fd9326363ff7cc34a5e5f171d83115#128,
  0x04c723c31896059a071280e2eb27b275#128,
  0x09832c1a1b6e5aa0523bd6b329e32f84#128,
  0x53d100ed20fcb15b6acbbe394a4c58cf#128,
  0xd0efaafb434d338545f9027f503c9fa8#128,
  0x51a3408f929d38f5bcb6da2110fff3d2#128,
  0xcd0c13ec5f974417c4a77e3d645d1973#128,
  0x60814fdc222a908846eeb814de5e0bdb#128,
  0xe0323a0a4906245cc2d3ac629195e479#128,
  0xe7c8376d8dd54ea96c56f4ea657aae08#128,
  0xba78252e1ca6b4c6e8dd741f4bbd8b8a#128,
  0x703eb5664803f60e613557b986c11d9e#128,
  0xe1f8981169d98e949b1e87e9ce5528df#128,
  0x8ca1890dbfe6426841992d0fb054bb16#128]

/-- The inverse S-box table of R139. -/
def invSboxRows : List (BitVec 128) := [
  0x52096ad53036a538bf40a39e81f3d7fb#128,
  0x7ce339829b2fff87348e4344c4dee9cb#128,
  0x547b9432a6c2233dee4c950b42fac34e#128,
  0x082ea16628d924b2765ba2496d8bd125#128,
  0x72f8f66486689816d4a45ccc5d65b692#128,
  0x6c704850fdedb9da5e154657a78d9d84#128,
  0x90d8ab008cbcd30af7e45805b8b34506#128,
  0xd02c1e8fca3f0f02c1afbd0301138a6b#128,
  0x3a9111414f67dcea97f2cfcef0b4e673#128,
  0x96ac7422e7ad3585e2f937e81c75df6e#128,
  0x47f11a711d29c5896fb7620eaa18be1b#128,
  0xfc563e4bc6d279209adbc0fe78cd5af4#128,
  0x1fdda8338807c731b11210592780ec5f#128,
  0x60517fa919b54a0d2de57a9f93c99cef#128,
  0xa0e03b4dae2af5b0c8ebbb3c83539961#128,
  0x172b047eba77d626e169146355210c7d#128]

/-- The entry of a table at row b[7:4], column b[3:0] (R138, R139). -/
def tableByte (rows : List (BitVec 128)) (b : Byte) : Byte :=
  (rows.getD (b.toNat / 16) 0#128).extractLsb' (8 * (15 - b.toNat % 16)) 8

/-- SBox (R138). -/
def sbox (b : Byte) : Byte := tableByte sboxRows b

/-- InvSBox (R139). -/
def invSbox (b : Byte) : Byte := tableByte invSboxRows b

end Sys2Proof.Machine
end

