-- ==== Sys2Proof/Machine/Rounds.lean ====
section
/-! DEFINITION. The round transforms on the state block and the word permutations of the key schedule
(40_gf_sbox.md R141 - R149), with the byte packing of AES words (20_memory.md R78). -/

namespace Sys2Proof.Machine

/-- An AES word from its bytes, the first one most significant (20_memory.md R78). -/
def packWord (a : Column) : Word := a.a0 ++ a.a1 ++ a.a2 ++ a.a3

/-- The bytes of an AES word: byte_j(w) = w[31-8j : 24-8j] (20_memory.md R78). -/
def unpackWord (w : Word) : Column :=
  ⟨w.extractLsb' 24 8, w.extractLsb' 16 8, w.extractLsb' 8 8, w.extractLsb' 0 8⟩

/-- A byte function on every byte of a column. -/
def Column.map (f : Byte → Byte) (a : Column) : Column := ⟨f a.a0, f a.a1, f a.a2, f a.a3⟩

/-- Bytewise exclusive-or of columns. -/
def Column.xor (a b : Column) : Column := ⟨a.a0 ^^^ b.a0, a.a1 ^^^ b.a1, a.a2 ^^^ b.a2, a.a3 ^^^ b.a3⟩

/-- A column function on every column of a block. -/
def Block.map (f : Column → Column) (s : Block) : Block := ⟨f s.c0, f s.c1, f s.c2, f s.c3⟩

/-- Bytewise exclusive-or of blocks. -/
def Block.xor (s t : Block) : Block := ⟨s.c0.xor t.c0, s.c1.xor t.c1, s.c2.xor t.c2, s.c3.xor t.c3⟩

/-- SubBytes (R141). -/
def subBytes (s : Block) : Block := s.map (Column.map sbox)

/-- InvSubBytes (R142). -/
def invSubBytes (s : Block) : Block := s.map (Column.map invSbox)

/-- ShiftRows: st'(r, c) = st(r, (c + r) mod 4) (R143). -/
def shiftRows (s : Block) : Block :=
  ⟨⟨s.c0.a0, s.c1.a1, s.c2.a2, s.c3.a3⟩, ⟨s.c1.a0, s.c2.a1, s.c3.a2, s.c0.a3⟩,
   ⟨s.c2.a0, s.c3.a1, s.c0.a2, s.c1.a3⟩, ⟨s.c3.a0, s.c0.a1, s.c1.a2, s.c2.a3⟩⟩

/-- InvShiftRows: st'(r, c) = st(r, (c - r) mod 4) (R144). -/
def invShiftRows (s : Block) : Block :=
  ⟨⟨s.c0.a0, s.c3.a1, s.c2.a2, s.c1.a3⟩, ⟨s.c1.a0, s.c0.a1, s.c3.a2, s.c2.a3⟩,
   ⟨s.c2.a0, s.c1.a1, s.c0.a2, s.c3.a3⟩, ⟨s.c3.a0, s.c2.a1, s.c1.a2, s.c0.a3⟩⟩

/-- One column of MixColumns: the circulant matrix with first row 02 03 01 01 (R145). -/
def mixColumn (a : Column) : Column :=
  ⟨gmul a.a0 2#8 ^^^ gmul a.a1 3#8 ^^^ a.a2 ^^^ a.a3,
   a.a0 ^^^ gmul a.a1 2#8 ^^^ gmul a.a2 3#8 ^^^ a.a3,
   a.a0 ^^^ a.a1 ^^^ gmul a.a2 2#8 ^^^ gmul a.a3 3#8,
   gmul a.a0 3#8 ^^^ a.a1 ^^^ a.a2 ^^^ gmul a.a3 2#8⟩

/-- MixColumns (R145). -/
def mixColumns (s : Block) : Block := s.map mixColumn

/-- One column of InvMixColumns: the circulant matrix with first row 0E 0B 0D 09 (R146). -/
def invMixColumn (a : Column) : Column :=
  ⟨gmul a.a0 0x0E#8 ^^^ gmul a.a1 0x0B#8 ^^^ gmul a.a2 0x0D#8 ^^^ gmul a.a3 0x09#8,
   gmul a.a0 0x09#8 ^^^ gmul a.a1 0x0E#8 ^^^ gmul a.a2 0x0B#8 ^^^ gmul a.a3 0x0D#8,
   gmul a.a0 0x0D#8 ^^^ gmul a.a1 0x09#8 ^^^ gmul a.a2 0x0E#8 ^^^ gmul a.a3 0x0B#8,
   gmul a.a0 0x0B#8 ^^^ gmul a.a1 0x0D#8 ^^^ gmul a.a2 0x09#8 ^^^ gmul a.a3 0x0E#8⟩

/-- InvMixColumns (R146). -/
def invMixColumns (s : Block) : Block := s.map invMixColumn

/-- W[i] of a schedule (10_state.md R46). An index past the storage gives 0; no command reads one. -/
def scheduleWord (w : Schedule) (i : Nat) : Word := w.getD i 0#32

/-- The round key of stage r as a block: column c is W[4r + c] (R147, 41_key_schedule.md R185). -/
def roundKey (w : Schedule) (r : Nat) : Block :=
  ⟨unpackWord (scheduleWord w (4 * r)), unpackWord (scheduleWord w (4 * r + 1)),
   unpackWord (scheduleWord w (4 * r + 2)), unpackWord (scheduleWord w (4 * r + 3))⟩

/-- AddRoundKey(st, r) (R147). -/
def addRoundKey (w : Schedule) (r : Nat) (s : Block) : Block := s.xor (roundKey w r)

/-- RotWord: [a0, a1, a2, a3] to [a1, a2, a3, a0] (R148). -/
def rotWord (w : Word) : Word := (w <<< 8) ||| (w >>> 24)

/-- SubWord: SBox on each byte (R149). -/
def subWord (w : Word) : Word := packWord ((unpackWord w).map sbox)

end Sys2Proof.Machine
end

