-- ==== Sys2Proof/Machine/KeySchedule.lean ====
section
/-! DEFINITION. The key schedule engine (41_key_schedule.md R180 - R187). -/

namespace Sys2Proof.Machine

/-- rc(j), j >= 1: 0x01 doubled j - 1 times (R182). -/
def rc (j : Nat) : Byte := xtimePow (j - 1) 1#8

/-- Rcon(j): rc(j) in the most significant byte (R182). -/
def rcon (j : Nat) : Word := packWord ⟨rc j, 0#8, 0#8, 0#8⟩

/-- The value of W[i], i >= Nk, from W[i-1] and W[i-Nk] (R183). For Nk = 8 and i mod 8 = 4 it is SubWord alone,
without RotWord and Rcon (90_conflicts.md C1). -/
def expandWord (k : Strength) (w : Schedule) (i : Nat) : Word :=
  let prev := scheduleWord w (i - 1)
  let temp :=
    if i % k.nk = 0 then subWord (rotWord prev) ^^^ rcon (i / k.nk)
    else if k.nk = 8 ∧ i % k.nk = 4 then subWord prev
    else prev
  scheduleWord w (i - k.nk) ^^^ temp

/-- One key-expansion phase: W[i] computed and stored (R183, R186). -/
def expandStep (k : Strength) (i : Nat) (w : Schedule) : Schedule := w.setIfInBounds i (expandWord k w i)

/-- `n` key-expansion phases from index i on, in increasing order (R186). -/
def expandFrom (k : Strength) : Nat → Nat → Schedule → Schedule
  | 0, _, w => w
  | n + 1, i, w => expandFrom k n (i + 1) (expandStep k i w)

/-- Store the first `n` key words into W[0 .. n-1]: "copied verbatim from the key" (R181). -/
def copyWords (key : Nat → Word) : Nat → Schedule → Schedule
  | 0, w => w
  | n + 1, w => (copyWords key n w).setIfInBounds n (key n)

/-- KeyExpansion as one procedure: the Nk key words, then every later word in order (R180 - R183). -/
def keyExpansion (k : Strength) (key : Nat → Word) (w : Schedule) : Schedule :=
  expandFrom k (k.words - k.nk) k.nk (copyWords key k.nk w)

end Sys2Proof.Machine
end

