-- ==== Sys2Proof/Machine/Cipher.lean ====
section
/-! DEFINITION. The single-block round pipeline, forward and inverse (42_block_cipher.md R200 - R206): the stages the
sequencer runs, and Cipher and InvCipher as whole procedures. -/

namespace Sys2Proof.Machine

/-- A full round r of the forward cipher, stages 1 .. Nr-1 (R200). -/
def fullRound (w : Schedule) (r : Nat) (s : Block) : Block :=
  addRoundKey w r (mixColumns (shiftRows (subBytes s)))

/-- The final round of the forward cipher, stage Nr, without MixColumns (R200, R202). -/
def finalRound (w : Schedule) (nr : Nat) (s : Block) : Block :=
  addRoundKey w nr (shiftRows (subBytes s))

/-- An inverse stage r in Nr-1 .. 1: InvShiftRows, InvSubBytes, AddRoundKey, InvMixColumns (R203, R204). -/
def invRound (w : Schedule) (r : Nat) (s : Block) : Block :=
  invMixColumns (addRoundKey w r (invSubBytes (invShiftRows s)))

/-- The inverse stage 0, without InvMixColumns (R203, R204). -/
def invFinalRound (w : Schedule) (s : Block) : Block :=
  addRoundKey w 0 (invSubBytes (invShiftRows s))

/-- Stage k of the forward state machine, 0 <= k <= Nr (R200). -/
def forwardStage (w : Schedule) (nr k : Nat) (s : Block) : Block :=
  if k = 0 then addRoundKey w 0 s
  else if k < nr then fullRound w k s
  else finalRound w nr s

/-- Stage k of the inverse state machine, Nr >= k >= 0 (R203). -/
def inverseStage (w : Schedule) (nr k : Nat) (s : Block) : Block :=
  if k = nr then addRoundKey w nr s
  else if k = 0 then invFinalRound w s
  else invRound w k s

/-- The full rounds 1 .. n in increasing order (R200, R201). -/
def fullRounds (w : Schedule) : Nat → Block → Block
  | 0, s => s
  | n + 1, s => fullRound w (n + 1) (fullRounds w n s)

/-- The inverse rounds n .. 1 in decreasing order (R203). -/
def invRounds (w : Schedule) : Nat → Block → Block
  | 0, s => s
  | n + 1, s => invRounds w n (invRound w (n + 1) s)

/-- Cipher(B, Nr) (R200). -/
def cipher (w : Schedule) (nr : Nat) (b : Block) : Block :=
  finalRound w nr (fullRounds w (nr - 1) (addRoundKey w 0 b))

/-- InvCipher(B, Nr) (R203). -/
def invCipher (w : Schedule) (nr : Nat) (b : Block) : Block :=
  invFinalRound w (invRounds w (nr - 1) (addRoundKey w nr b))

end Sys2Proof.Machine
end

