-- ==== Sys2Proof/Machine/Ops.lean ====
section
/-! DEFINITION. The named operations over memory and the control state: reading and writing one byte and a run of bytes,
clearing the outcome, completing, and REJECTING, which stands where a processor takes an exception (60_exceptions.md R283,
R288). There is no return from a rejection (R289). -/

namespace Sys2Proof.Machine

/-- The byte at a window offset; an unlisted offset reads 0x00 (10_state.md R31 - R33; log entry 8). -/
def Memory.read : Memory → Nat → Byte
  | [], _ => 0#8
  | (b, v) :: m, a => if b = a then v else Memory.read m a

/-- The memory without an offset's byte, which then reads 0x00. -/
def Memory.erase (m : Memory) (a : Nat) : Memory := m.filter (fun c => c.1 != a)

/-- A cell put at its place in the rising order. -/
def Memory.insert : Memory → Nat → Byte → Memory
  | [], a, v => [(a, v)]
  | (b, w) :: m, a, v => if a < b then (a, v) :: (b, w) :: m else (b, w) :: Memory.insert m a v

/-- The memory with one byte written, in canonical form: a zero byte is not listed. -/
def Memory.write (m : Memory) (a : Nat) (v : Byte) : Memory :=
  if v = 0#8 then m.erase a else (m.erase a).insert a v

/-- The bytes written from an offset up. -/
def Memory.writeBytes : Memory → Nat → List Byte → Memory
  | m, _, [] => m
  | m, a, v :: vs => Memory.writeBytes (m.write a v) (a + 1) vs

/-- A CMD write that is not ignored clears the outcome of the last command (43_modes.md R230). -/
def State.clearOutcome (s : State) : State := { s with done := false, err := false, cause := .none }

/-- Reject(c): "DONE <- 1; ERR <- 1; CAUSE <- c" and nothing else (60_exceptions.md R283). -/
def State.reject (c : Cause) (s : State) : State := { s with done := true, err := true, cause := c }

/-- Complete(): BUSY <- 0; DONE <- 1; ERR <- 0; CAUSE <- NONE; seq <- IDLE (43_modes.md R247). -/
def State.complete (s : State) : State :=
  { s with busy := false, done := true, err := false, cause := .none, seq := .idle }

/-- The state with the sequencer at another phase. -/
def State.goto (p : Phase) (s : State) : State := { s with seq := p }

end Sys2Proof.Machine
end

