-- ==== Sys2Proof/Machine/Operands.lean ====
section
/-! DEFINITION. The operands of a command: key words, the IV, message blocks, the block count, and the byte lanes of a
host word (20_memory.md R74, R78 - R80; 30_encoding.md R107; 43_modes.md R231, R232). -/

namespace Sys2Proof.Machine

/-- Window offset of KEY[0] (20_memory.md R71). -/
def keyBase : Nat := 0x020

/-- Window offset of IV[0] (20_memory.md R71). -/
def ivBase : Nat := 0x040

/-- Window offset of MSG[0] (20_memory.md R71). -/
def msgBase : Nat := 0x080

/-- The window offsets that hold a byte of KEY, IV or MSG (20_memory.md R71, R74). -/
def isStorage (a : Nat) : Bool :=
  (keyBase ≤ a && a < keyBase + 32) || (ivBase ≤ a && a < ivBase + 16)
    || (msgBase ≤ a && a < msgBase + Config.maxLen)

/-- KEY[j] (10_state.md R31). -/
def keyByte (m : Memory) (j : Nat) : Byte := m.read (keyBase + j)

/-- IV[j] (10_state.md R32). -/
def ivByte (m : Memory) (j : Nat) : Byte := m.read (ivBase + j)

/-- MSG[j] (10_state.md R33). -/
def msgByte (m : Memory) (j : Nat) : Byte := m.read (msgBase + j)

/-- Four consecutive bytes as a column. -/
def readColumn (m : Memory) (a : Nat) : Column := ⟨m.read a, m.read (a + 1), m.read (a + 2), m.read (a + 3)⟩

/-- Sixteen consecutive bytes as a block, byte for byte (20_memory.md R79). -/
def readBlock (m : Memory) (a : Nat) : Block :=
  ⟨readColumn m a, readColumn m (a + 4), readColumn m (a + 8), readColumn m (a + 12)⟩

/-- Key word i: KEY[4i] most significant (20_memory.md R78, 41_key_schedule.md R181). -/
def keyWord (m : Memory) (i : Nat) : Word := packWord (readColumn m (keyBase + 4 * i))

/-- IV[0..15] as a block. -/
def ivBlock (m : Memory) : Block := readBlock m ivBase

/-- BlockRead(b) = MSG[16b .. 16b+15] (43_modes.md R232). -/
def msgBlock (m : Memory) (b : Nat) : Block := readBlock m (msgBase + 16 * b)

/-- The bytes of a column, byte 0 first. -/
def Column.bytes (a : Column) : List Byte := [a.a0, a.a1, a.a2, a.a3]

/-- The bytes of a block, byte 0 first (20_memory.md R79). -/
def Block.bytes (s : Block) : List Byte := s.c0.bytes ++ s.c1.bytes ++ s.c2.bytes ++ s.c3.bytes

/-- BlockWrite(b, X) (43_modes.md R232). -/
def writeMsgBlock (m : Memory) (b : Nat) (x : Block) : Memory := m.writeBytes (msgBase + 16 * b) x.bytes

/-- nblk = ceil_div(len, 16) (43_modes.md R231). -/
def blockCount (len : Word) : Nat := (len.toNat + 15) / 16

/-- The register value of four storage bytes, the first in bits [7:0] (20_memory.md R74). -/
def laneWord (m : Memory) (a : Nat) : Word :=
  m.read (a + 3) ++ m.read (a + 2) ++ m.read (a + 1) ++ m.read a

/-- The four storage bytes of a register value, bits [7:0] first (20_memory.md R74). -/
def laneBytes (v : Word) : List Byte :=
  [v.extractLsb' 0 8, v.extractLsb' 8 8, v.extractLsb' 16 8, v.extractLsb' 24 8]

end Sys2Proof.Machine
end

