-- ==== Sys2Proof/Machine/Flags.lean ====
section
/-! DEFINITION. The flags: STATUS, CTRL and LOADED as the host reads them, the LOADED bits a host write sets, and the irq
output (10_state.md R35 - R42, R51; 60_exceptions.md R281, R285). -/

namespace Sys2Proof.Machine

/-- The cause codes (60_exceptions.md R281). -/
def causeCode : Cause → BitVec 4
  | .none => 0x0#4
  | .badCmd => 0x1#4
  | .badKsize => 0x2#4
  | .noKey => 0x3#4
  | .noIv => 0x4#4
  | .lenZero => 0x5#4
  | .lenMax => 0x6#4

/-- STATUS = zext_32(CAUSE || 0b0 || ERR || DONE || BUSY) (10_state.md R40). -/
def statusWord (s : State) : Word :=
  0#24 ++ causeCode s.cause ++ 0#1 ++ BitVec.ofBool s.err ++ BitVec.ofBool s.done ++ BitVec.ofBool s.busy

/-- CTRL = zext_32(IRQEN) (10_state.md R35, 20_memory.md R75). -/
def ctrlWord (s : State) : Word := 0#31 ++ BitVec.ofBool s.irqEn

/-- LOADED = zext_32(IVW || KEYW) (10_state.md R41, R42; 20_memory.md R75). -/
def loadedWord (s : State) : Word := 0#20 ++ s.ivw ++ s.keyw

/-- KEYW[k] <- 1 (10_state.md R41). -/
def markKey (keyw : BitVec 8) (k : Nat) : BitVec 8 := keyw ||| (1#8 <<< k)

/-- IVW[k] <- 1 (10_state.md R42). -/
def markIv (ivw : BitVec 4) (k : Nat) : BitVec 4 := ivw ||| (1#4 <<< k)

/-- KEYW[Nk-1:0] are all 1 (10_state.md R41, 60_exceptions.md R282). -/
def keyLoaded (keyw : BitVec 8) (k : Strength) : Bool := (List.range k.nk).all (fun i => keyw.getLsbD i)

/-- IVW = 0xF (10_state.md R42). -/
def ivLoaded (ivw : BitVec 4) : Bool := ivw == 0xF#4

/-- irq = DONE & IRQEN, a level (60_exceptions.md R285). -/
def irq (s : State) : Bool := s.done && s.irqEn

end Sys2Proof.Machine
end

