-- ==== Sys2Proof/Machine/Engine.lean ====
section
/-! DEFINITION. The engine: one function per sequencer phase, and how far the engine runs before the host's next input
(10_state.md R48, 41_key_schedule.md R186, 42_block_cipher.md R200 - R204, 43_modes.md R230 - R247). -/

namespace Sys2Proof.Machine

/-- The stage a block starts at: 0 forward, Nr inverse (42_block_cipher.md R200, R203). -/
def firstStage (d : Dir) (nr : Nat) : Nat :=
  match d with
  | .enc => 0
  | .dec => nr

/-- The stage a block ends at: Nr forward, 0 inverse (R200, R203). -/
def lastStage (d : Dir) (nr : Nat) : Nat :=
  match d with
  | .enc => nr
  | .dec => 0

/-- The stage after stage k (R200, R203). -/
def nextStage (d : Dir) (k : Nat) : Nat :=
  match d with
  | .enc => k + 1
  | .dec => k - 1

/-- Stage k of the single-block state machine of a direction (R200, R203). -/
def runStage (d : Dir) (w : Schedule) (nr k : Nat) (x : Block) : Block :=
  match d with
  | .enc => forwardStage w nr k x
  | .dec => inverseStage w nr k x

/-- The first block of a command: block 0, or the last one for CBC_DEC (43_modes.md R233 - R242, R245). -/
def firstBlock (op : Op) (nblk : Nat) : Nat := if op = .cbcDec then nblk - 1 else 0

/-- The last block of a command: the highest one, or block 0 for CBC_DEC (43_modes.md R245). -/
def finalBlock (op : Op) (nblk : Nat) : Nat := if op = .cbcDec then 0 else nblk - 1

/-- The block after block b (43_modes.md R245). -/
def nextBlock (op : Op) (b : Nat) : Nat := if op = .cbcDec then b - 1 else b + 1

/-- What a block starts from: st and the chaining register (43_modes.md R233 - R242). CBC_ENC XORs the IV or the previous
ciphertext in (R235); CBC_DEC captures the previous ciphertext before it is overwritten (R236, 70_reset_and_hazards.md
R319). -/
def loadBlock (b : Nat) (s : State) : State :=
  match s.op with
  | .cbcEnc =>
    let c := if b = 0 then ivBlock s.mem else s.chain
    { s with chain := c, st := (msgBlock s.mem b).xor c }
  | .cbcDec =>
    { s with chain := if b = 0 then ivBlock s.mem else msgBlock s.mem (b - 1), st := msgBlock s.mem b }
  | .ecbEnc | .ecbDec => { s with st := msgBlock s.mem b }
  | .blkEnc128 | .blkEnc192 | .blkEnc256 => { s with st := msgBlock s.mem b }
  | .blkDec128 | .blkDec192 | .blkDec256 => { s with st := msgBlock s.mem b }

/-- What a block's result is, after its last stage: CBC_ENC chains it (R235), CBC_DEC XORs the captured value in (R236). -/
def sealBlock (s : State) : State :=
  match s.op with
  | .cbcEnc => { s with chain := s.st }
  | .cbcDec => { s with st := s.st.xor s.chain }
  | .ecbEnc | .ecbDec => s
  | .blkEnc128 | .blkEnc192 | .blkEnc256 => s
  | .blkDec128 | .blkDec192 | .blkDec256 => s

/-- BlockWrite(b, st) (43_modes.md R232). -/
def storeBlock (b : Nat) (s : State) : State := { s with mem := writeMsgBlock s.mem b s.st }

/-- W[i] computed and stored (41_key_schedule.md R183). -/
def storeWord (i : Nat) (s : State) : State := { s with w := expandStep s.strength i s.w }

/-- Phase EXPAND(i): W[i], then EXPAND(i+1) or the first stage of the first block (10_state.md R48, 41 R183, R186). -/
def expandPhase (i : Nat) (s : State) : State :=
  if i + 1 < s.strength.words then (storeWord i s).goto (.expand (i + 1))
  else (storeWord i s).goto (.block (firstBlock s.op s.nblk) (firstStage s.op.dir s.strength.nr))

/-- After the last stage of block b: the last block's result is left in st for FINISH, any other is written at once
(10_state.md R48; log entry 10). -/
def endBlock (b : Nat) (s : State) : State :=
  if b = finalBlock s.op s.nblk then (sealBlock s).goto .finish
  else (storeBlock b (sealBlock s)).goto (.block (nextBlock s.op b) (firstStage s.op.dir s.strength.nr))

/-- Block b is loaded before its first stage (42 R200, R203). -/
def enterBlock (b k : Nat) (s : State) : State :=
  if k = firstStage s.op.dir s.strength.nr then loadBlock b s else s

/-- Stage k applied to the state block (42 R200, R203). -/
def stageStep (k : Nat) (s : State) : State :=
  { s with st := runStage s.op.dir s.w s.strength.nr k s.st }

/-- Phase BLOCK(b, k): stage k of block b (10_state.md R48). -/
def blockPhase (b k : Nat) (s : State) : State :=
  if k = lastStage s.op.dir s.strength.nr then endBlock b (stageStep k (enterBlock b k s))
  else (stageStep k (enterBlock b k s)).goto (.block b (nextStage s.op.dir k))

/-- Phase FINISH: "writing the last result and completing" (10_state.md R48, 43_modes.md R247). -/
def finishPhase (s : State) : State := (storeBlock (finalBlock s.op s.nblk) s).complete

/-- One phase of the engine; IDLE does nothing (10_state.md R48, 70_reset_and_hazards.md R313). -/
def phaseStep (s : State) : State :=
  match s.seq with
  | .idle => s
  | .expand i => expandPhase i s
  | .block b k => blockPhase b k s
  | .finish => finishPhase s

/-- `n` phases of the engine. -/
def runPhases : Nat → State → State
  | 0, s => s
  | n + 1, s => runPhases n (phaseStep s)

/-- The phases of a whole command: the expanded words, Nr + 1 stages a block, and FINISH (10_state.md R48; 41 R186;
42_block_cipher.md R201). -/
def commandPhases (k : Strength) (nblk : Nat) : Nat := (k.words - k.nk) + nblk * (k.nr + 1) + 1

/-- The engine works on for a gap: the number of phases it names, or for `none` to the end of its command
(70_reset_and_hazards.md R323; log entry 2). -/
def advanceBy (gap : Option Nat) (s : State) : State :=
  match gap with
  | some n => runPhases n s
  | none => runPhases Config.maxPhases s

/-- The engine works on until the host's next input takes effect (log entry 2). -/
def advance (s : State) : State := advanceBy s.quiet s

end Sys2Proof.Machine
end

