-- ==== Sys2Proof/Machine/Command.lean ====
section
/-! DEFINITION. Command processing: validation, acceptance, and the procedure every command runs (43_modes.md R230,
60_exceptions.md R282, 10_state.md R49). -/

namespace Sys2Proof.Machine

/-- Validate of a resolved command: the first failing check in the fixed order NOKEY, NOIV, LENZERO, LENMAX (60 R282;
BADCMD and BADKSIZE come before it, in `command`). -/
def validate (d : Resolved) (s : State) : Cause :=
  if !keyLoaded s.keyw d.strength then .noKey
  else if d.op.mode == .cbc && !ivLoaded s.ivw then .noIv
  else if s.len.toNat = 0 then .lenZero
  else if d.maxLen < s.len.toNat then .lenMax
  else .none

/-- Acceptance: latch op, Nk, Nr, nblk and len, BUSY <- 1, copy the key words, and go to EXPAND(Nk) (43 R230, 10 R49,
41 R181, R186; log entry 9). -/
def accept (d : Resolved) (s : State) : State :=
  { s with
    op := d.op
    strength := d.strength
    nblk := blockCount s.len
    latchedLen := s.len
    busy := true
    w := copyWords (keyWord s.mem) d.strength.nk s.w
    seq := .expand d.strength.nk }

/-- Command(v) of R230 from the decoder's answer on: ignored while BUSY (70_reset_and_hazards.md R317), otherwise
rejected or accepted; an accepted command's engine then works on until the host's next input (`advance`). -/
def command (r : Resolution) (s : State) : State :=
  if s.busy then advance s
  else
    match r with
    | .reject c => s.clearOutcome.reject c
    | .command d =>
      match validate d s.clearOutcome with
      | .none => advance (accept d s.clearOutcome)
      | c => s.clearOutcome.reject c

end Sys2Proof.Machine
end

