-- ==== Sys2Proof/Machine/Cbc.lean ====
section
/-! DEFINITION. The CBC commands (43_modes.md R235, R236). -/

namespace Sys2Proof.Machine

/-- CBC_ENC (R235): blocks in increasing order, each XORed with the IV or the previous ciphertext before Cipher. -/
def execCbcEnc (ksize : BitVec 2) (s : State) : Host.Outcome State Fault Refusal :=
  .next (command (resolveMode .cbcEnc ksize) s)

/-- CBC_DEC (R236): blocks in decreasing order, InvCipher and then the XOR with the previous ciphertext or the IV. -/
def execCbcDec (ksize : BitVec 2) (s : State) : Host.Outcome State Fault Refusal :=
  .next (command (resolveMode .cbcDec ksize) s)

end Sys2Proof.Machine
end

