-- ==== Sys2Proof/Machine/Ecb.lean ====
section
/-! DEFINITION. The ECB commands (43_modes.md R233, R234). -/

namespace Sys2Proof.Machine

/-- ECB_ENC (R233): every block of MSG through Cipher. -/
def execEcbEnc (ksize : BitVec 2) (s : State) : Host.Outcome State Fault Refusal :=
  .next (command (resolveMode .ecbEnc ksize) s)

/-- ECB_DEC (R234): every block of MSG through InvCipher. -/
def execEcbDec (ksize : BitVec 2) (s : State) : Host.Outcome State Fault Refusal :=
  .next (command (resolveMode .ecbDec ksize) s)

end Sys2Proof.Machine
end

