-- ==== Sys2Proof/Machine/SingleBlock.lean ====
section
/-! DEFINITION. The single-block commands (43_modes.md R237 - R242): MSG[0..15] through Cipher or InvCipher at the
strength of the opcode; KSIZE is ignored (30_encoding.md R103). -/

namespace Sys2Proof.Machine

/-- BLK_ENC128 (R237). -/
def execBlkEnc128 (_ksize : BitVec 2) (s : State) : Host.Outcome State Fault Refusal :=
  .next (command (resolveBlk .blkEnc128 .k128) s)

/-- BLK_ENC192 (R238). -/
def execBlkEnc192 (_ksize : BitVec 2) (s : State) : Host.Outcome State Fault Refusal :=
  .next (command (resolveBlk .blkEnc192 .k192) s)

/-- BLK_ENC256 (R239). -/
def execBlkEnc256 (_ksize : BitVec 2) (s : State) : Host.Outcome State Fault Refusal :=
  .next (command (resolveBlk .blkEnc256 .k256) s)

/-- BLK_DEC128 (R240). -/
def execBlkDec128 (_ksize : BitVec 2) (s : State) : Host.Outcome State Fault Refusal :=
  .next (command (resolveBlk .blkDec128 .k128) s)

/-- BLK_DEC192 (R241). -/
def execBlkDec192 (_ksize : BitVec 2) (s : State) : Host.Outcome State Fault Refusal :=
  .next (command (resolveBlk .blkDec192 .k192) s)

/-- BLK_DEC256 (R242). -/
def execBlkDec256 (_ksize : BitVec 2) (s : State) : Host.Outcome State Fault Refusal :=
  .next (command (resolveBlk .blkDec256 .k256) s)

end Sys2Proof.Machine
end

