-- ==== Sys2Proof/Machine/Dispatch.lean ====
section
/-! DEFINITION. The dispatch: one arm per command, one direct call of its meaning. -/

namespace Sys2Proof.Machine

def exec (i : Instr) (s : State) : Host.Outcome State Fault Refusal :=
  match i with
  | .ecbEnc ksize => Sys2Proof.Machine.execEcbEnc ksize s
  | .ecbDec ksize => Sys2Proof.Machine.execEcbDec ksize s
  | .cbcEnc ksize => Sys2Proof.Machine.execCbcEnc ksize s
  | .cbcDec ksize => Sys2Proof.Machine.execCbcDec ksize s
  | .blkEnc128 ksize => Sys2Proof.Machine.execBlkEnc128 ksize s
  | .blkEnc192 ksize => Sys2Proof.Machine.execBlkEnc192 ksize s
  | .blkEnc256 ksize => Sys2Proof.Machine.execBlkEnc256 ksize s
  | .blkDec128 ksize => Sys2Proof.Machine.execBlkDec128 ksize s
  | .blkDec192 ksize => Sys2Proof.Machine.execBlkDec192 ksize s
  | .blkDec256 ksize => Sys2Proof.Machine.execBlkDec256 ksize s

end Sys2Proof.Machine
end

