-- ==== Sys2Proof/Machine/HostBus.lean ====
section
/-! DEFINITION. The host's accesses to the register window: the offset map, reads, writes, bus errors, and the output
ports (20_memory.md R70 - R77, 70_reset_and_hazards.md R315 - R318, 10_state.md R30). -/

namespace Sys2Proof.Machine

/-- The offset of a system address, when it lies in the window at BASE (20_memory.md R70; log entry 12). -/
def offsetOf (base address : Nat) : Option Offset :=
  if base ≤ address ∧ address < base + Config.windowBytes then some (BitVec.ofNat 12 (address - base)) else none

/-- The offset map, by the aligned offset as a number (20_memory.md R71). -/
def offsetMap (n : Nat) : Reg :=
  if n = 0x000 then .cmd
  else if n = 0x004 then .status
  else if n = 0x008 then .ctrl
  else if n = 0x00C then .len
  else if n = 0x010 then .loaded
  else if keyBase ≤ n ∧ n < keyBase + 32 then .key ((n - keyBase) / 4)
  else if ivBase ≤ n ∧ n < ivBase + 16 then .iv ((n - ivBase) / 4)
  else if msgBase ≤ n ∧ n < msgBase + Config.maxLen then .msg ((n - msgBase) / 4)
  else .reserved

/-- The register at an aligned offset (20_memory.md R71). -/
def regAt (off : Offset) : Reg := offsetMap off.toNat

/-- The window offset of KEYk (20_memory.md R71). -/
def keyOffset (k : Nat) : Nat := keyBase + 4 * k

/-- The window offset of IVk (R71). -/
def ivOffset (k : Nat) : Nat := ivBase + 4 * k

/-- The window offset of MSGk (R71). -/
def msgOffset (k : Nat) : Nat := msgBase + 4 * k

/-- The value a register holds (20_memory.md R75). -/
def regValue (s : State) : Reg → Word
  | .cmd => 0#32
  | .status => statusWord s
  | .ctrl => ctrlWord s
  | .len => s.len
  | .loaded => loadedWord s
  | .key k => laneWord s.mem (keyOffset k)
  | .iv k => laneWord s.mem (ivOffset k)
  | .msg k => laneWord s.mem (msgOffset k)
  | .reserved => 0#32

/-- Is this an MSG register (70_reset_and_hazards.md R316)? -/
def Reg.isMsg : Reg → Bool
  | .msg _ => true
  | .cmd | .status | .ctrl | .len | .loaded | .key _ | .iv _ | .reserved => false

/-- Read(off): the register's value, or while BUSY a free value for MSG (R75, R316). Nothing else changes (R75). -/
def hostRead (off : Offset) (s : State) : State :=
  if s.busy && (regAt off).isMsg then
    { s with resp := .readOk (Config.freeWord s.freeCount), freeCount := s.freeCount + 1 }
  else { s with resp := .readOk (regValue s (regAt off)) }

/-- The write of a CMD word: the decoded command runs, and a word that decodes to none is rejected (43_modes.md R230,
30_encoding.md R105). -/
def commandWrite (v : Word) (s : State) : Host.Outcome State Fault Refusal :=
  match decode v with
  | .command i => exec i s
  | .reject c => .next (command (.reject c) s)

/-- Write(off, v) (20_memory.md R76). A KEY, IV or MSG write while BUSY is the run's fault (70 R315). After any other
write than CMD's the engine works on as after every access. -/
def hostWrite (off : Offset) (v : Word) (s : State) : Host.Outcome State Fault Refusal :=
  match regAt off with
  | .cmd => commandWrite v s
  | .status => .next (advance (if v.getLsbD 1 then { s with done := false } else s))
  | .ctrl => .next (advance { s with irqEn := v.getLsbD 0 })
  | .len => .next (advance { s with len := v })
  | .loaded => .next (advance s)
  | .key k =>
    if s.busy then .fault (.operandWriteWhileBusy off)
    else .next (advance { s with mem := s.mem.writeBytes (keyOffset k) (laneBytes v), keyw := markKey s.keyw k })
  | .iv k =>
    if s.busy then .fault (.operandWriteWhileBusy off)
    else .next (advance { s with mem := s.mem.writeBytes (ivOffset k) (laneBytes v), ivw := markIv s.ivw k })
  | .msg k =>
    if s.busy then .fault (.operandWriteWhileBusy off)
    else .next (advance { s with mem := s.mem.writeBytes (msgOffset k) (laneBytes v) })
  | .reserved => .next (advance s)

/-- Is the access 4 bytes wide at a multiple of 4 (20_memory.md R72)? bus_size = 10 is 4 bytes (10_state.md R30). -/
def Access.legal (a : Access) : Bool := a.size == 0b10#2 && a.addr.toNat % 4 == 0

/-- One host access: BusError and no state change when it is not legal, at every offset (R72); else a write or a read. -/
def serve (a : Access) (s : State) : Host.Outcome State Fault Refusal :=
  if !a.legal then .next (advance { s with resp := .busError })
  else if a.we then hostWrite a.addr a.wdata { s with resp := .writeOk }
  else .next (advance (hostRead a.addr s))

/-- Does the last read satisfy (data & mask) = value (30_encoding.md R108)? -/
def pollHit (mask value : Word) : Response → Bool
  | .readOk d => d &&& mask == value
  | .idle | .writeOk | .busError => false

/-- One read of a POLL loop. A hit ends the loop; after a miss the engine makes at least one phase and the loop stays
the host's next input (30_encoding.md R108; 70 R323; log entry 14). -/
def servePoll (off : Offset) (mask value : Word) (pending : List Input) (s : State) : State :=
  let s := if off.toNat % 4 = 0 then hostRead off s else { s with resp := .busError }
  if pollHit mask value s.resp then advance s
  else { advanceBy (s.quiet.map (· + 1)) s with inputs := pending }

/-- bus_ack for the last access (10_state.md R30). -/
def busAck (s : State) : Bool := s.resp != .idle

/-- bus_err: the last access failed (R30). -/
def busErr (s : State) : Bool := s.resp == .busError

/-- bus_rdata of the last access, where it has defined data (R30, U4). -/
def busRdata (s : State) : Option Word :=
  match s.resp with
  | .readOk d => some d
  | .idle | .writeOk | .busError => none

end Sys2Proof.Machine
end

