-- ==== Sys2Proof/Machine/HostProgram.lean ====
section
/-! DEFINITION. Host programs: the bus operations, the command mnemonics and the pseudo-instructions of the spec's host
syntax as lists of inputs (30_encoding.md R108 - R110). When the host's next access follows an access is open
(70_reset_and_hazards.md R323): a definition here takes that gap as an argument, or fixes it as log entry 18 says. -/

namespace Sys2Proof.Machine

/-- A legal 4-byte write (R108, `WR off, value`). -/
def writeAccess (off : Offset) (v : Word) : Access := ⟨true, off, 0b10#2, v⟩

/-- A legal 4-byte read (R108, `RD off`). -/
def readAccess (off : Offset) : Access := ⟨false, off, 0b10#2, 0#32⟩

/-- `WR off, value`, the engine then making `quiet` phases (R108). -/
def wr (off : Offset) (v : Word) (quiet : Option Nat) : Input := .access (writeAccess off v) quiet

/-- `RD off` (R108). -/
def rd (off : Offset) (quiet : Option Nat) : Input := .access (readAccess off) quiet

/-- `CMD <command>`: WR 0x000 of the command's word (R109). -/
def cmdInput (i : Instr) (quiet : Option Nat) : Input := wr 0x000#12 (encode i) quiet

/-- One WR for each group of four bytes, from an offset up, the first byte in bits [7:0] (R110, 20_memory.md R74). The gap
after each WR is `none`: DESIGN CHOICE (log entry 18), without effect, because such a write on an IDLE block starts nothing
and while BUSY = 1 it is the run's fault (R315). -/
def writeRun (off : Nat) : List Byte → List Input
  | b0 :: b1 :: b2 :: b3 :: rest =>
    wr (BitVec.ofNat 12 off) (b3 ++ b2 ++ b1 ++ b0) none :: writeRun (off + 4) rest
  | _ => []

/-- `LDKEY b0 ... b(4n-1)` (R110). -/
def ldKey (bytes : List Byte) : List Input := writeRun keyBase bytes

/-- `LDIV b0 ... b15` (R110). -/
def ldIv (bytes : List Byte) : List Input := writeRun ivBase bytes

/-- `LDMSG b0 ... b(4n-1)` (R110). -/
def ldMsg (bytes : List Byte) : List Input := writeRun msgBase bytes

/-- `SETLEN n` (R110), legal while BUSY = 1 too (R318). `quiet` is the gap after it (log entry 2). -/
def setLen (n : Word) (quiet : Option Nat) : Input := wr 0x00C#12 n quiet

/-- `RUN <command>`: CMD, then POLL of BUSY = 0 (R110). `quiet` is the gap after the CMD write and after each read
of the POLL; that it is one gap for both is a DESIGN CHOICE (log entry 18). -/
def run (i : Instr) (quiet : Option Nat) : List Input :=
  [cmdInput i quiet, .poll 0x004#12 0x00000001#32 0x00000000#32 quiet]

/-- `ACK`: clear DONE (R110), legal while BUSY = 1 too (R318). `quiet` is the gap after it (log entry 2). -/
def ack (quiet : Option Nat) : Input := wr 0x004#12 0x00000002#32 quiet

end Sys2Proof.Machine
end

