-- ==== Sys2Proof/Machine/Step.lean ====
section
/-! DEFINITION. One step of the block: the host's next input is served, or, when the host has none, the running command
completes. -/

namespace Sys2Proof.Machine

/-- The state as it serves an input: the input taken off the list, and the gap after it noted. -/
def State.take (s : State) (rest : List Input) (quiet : Option Nat) : State :=
  { s with inputs := rest, quiet := quiet }

/-- A rising edge with rst_n = 0: every register at its reset value (70_reset_and_hazards.md R310, R312). The host's
pending inputs stay: an access presented during reset is answered after it (U15; log entry 6). -/
def State.afterReset (s : State) (rest : List Input) : State :=
  { State.reset with inputs := rest, freeCount := s.freeCount }

/-- One step (log entries 1 and 2). With no input pending the engine runs its command to the end, or does nothing when
IDLE (70_reset_and_hazards.md R313, R323). -/
def step (s : State) : Host.Outcome State Fault Refusal :=
  match s.inputs with
  | [] => .next (advanceBy none s)
  | .access a quiet :: rest => serve a (s.take rest quiet)
  | .poll off mask value quiet :: rest => .next (servePoll off mask value s.inputs (s.take rest quiet))
  | .waitIrq :: rest =>
    if irq s then .next { s with inputs := rest } else .next (advanceBy none s)
  | .resetEdge :: rest => .next (s.afterReset rest)
  | .powerEvent :: _ => .refused .powerEvent

/-- The state with a command's word as the host's next CMD write, the host then waiting until the command has finished
(log entry 7). The next step decodes and runs exactly that word. -/
def State.withFetchWord (s : State) (nbits w : Nat) : State :=
  { s with inputs := wr 0x000#12 (BitVec.ofNat 32 (w % 2 ^ nbits)) none :: s.inputs }

end Sys2Proof.Machine
end

