-- ==== Sys2Proof/Safety.lean ====
section
/-! DEFINITION. The terms the claims use: the invariant of the block, the conditions under which a command is accepted and
finishes, what success and a command's frame are, and the one hazard of the host. -/

namespace Sys2Proof.Machine

/-- The canonical form of the memory: offsets strictly rising, no zero byte listed (log entry 8). -/
abbrev Memory.wf (m : Memory) : Prop := m.Pairwise (fun c d => c.1 < d.1) ∧ ∀ c ∈ m, c.2 ≠ 0#8

/-- Only offsets of KEY, IV and MSG bytes are listed (20_memory.md R71). -/
abbrev Memory.inStorage (m : Memory) : Prop := ∀ c ∈ m, isStorage c.1 = true

/-- A phase that a command of this strength and block count has (10_state.md R48; 41 R186; 42 R200, R203). -/
def phaseInRange (k : Strength) (nblk : Nat) : Phase → Bool
  | .idle => true
  | .expand i => decide (k.nk ≤ i) && decide (i < k.words)
  | .block b stage => decide (b < nblk) && decide (stage ≤ k.nr)
  | .finish => true

/-- What holds while a command runs: a cleared outcome (43 R230), the operands present (60 R282), and the latched block
count (10 R49, 43 R231). -/
abbrev RunningOk (s : State) : Prop :=
  s.done = false ∧ s.err = false ∧ s.cause = .none
    ∧ keyLoaded s.keyw s.strength = true ∧ (s.op.mode = .cbc → ivLoaded s.ivw = true)
    ∧ s.nblk = blockCount s.latchedLen ∧ 1 ≤ s.nblk ∧ s.nblk ≤ Config.nblkMax
    ∧ (s.op.mode = .blk → s.nblk = 1)

/-- A key or IV word no host write has supplied still holds its reset value (10_state.md R31, R32, R41, R42). -/
abbrev UnloadedIsZero (s : State) : Prop :=
  (∀ k < 8, s.keyw.getLsbD k = false → laneWord s.mem (keyOffset k) = 0#32)
    ∧ (∀ k < 4, s.ivw.getLsbD k = false → laneWord s.mem (ivOffset k) = 0#32)

/-- The invariant of the block: canonical memory, BUSY exactly outside IDLE (10_state.md R36, R48), a legal phase, a
legal running command, ERR exactly with a cause (R38, R39), and unloaded operand words at zero. -/
abbrev Inv (s : State) : Prop :=
  s.mem.wf ∧ s.mem.inStorage
    ∧ (s.busy = true ↔ s.seq ≠ .idle)
    ∧ phaseInRange s.strength s.nblk s.seq = true
    ∧ (s.busy = true → RunningOk s)
    ∧ (s.err = true ↔ s.cause ≠ .none)
    ∧ UnloadedIsZero s

/-- No command is in flight (10_state.md R36, R48). -/
abbrev Idle (s : State) : Prop := s.busy = false ∧ s.seq = .idle

/-- A resolved command is accepted: no command runs, the key words of its strength are loaded, the IV too for CBC, and
LEN lies in 1 .. maxLen (60_exceptions.md R281, R282). -/
abbrev Ready (d : Resolved) (s : State) : Prop :=
  s.busy = false ∧ (∀ k < d.strength.nk, s.keyw.getLsbD k = true) ∧ (d.op.mode = .cbc → s.ivw = 0xF#4)
    ∧ 1 ≤ s.len.toNat ∧ s.len.toNat ≤ d.maxLen

/-- The host's next input takes effect no sooner than after that many engine phases (70_reset_and_hazards.md R323;
`none` is the host that waits for the end of the run). -/
def HostWaits (phases : Nat) (s : State) : Prop := ∀ n, s.quiet = some n → phases ≤ n

/-- The outcome of a completed command: BUSY = 0, DONE = 1, ERR = 0, CAUSE = NONE, seq = IDLE (43_modes.md R247). -/
abbrev Succeeded (t : State) : Prop :=
  t.busy = false ∧ t.done = true ∧ t.err = false ∧ t.cause = .none ∧ t.seq = .idle

/-- What no command changes: LEN, CTRL, LOADED, the host's inputs and the bus answer (20_memory.md R85, 10_state.md R51). -/
abbrev RegistersKept (s t : State) : Prop :=
  t.len = s.len ∧ t.irqEn = s.irqEn ∧ t.keyw = s.keyw ∧ t.ivw = s.ivw ∧ t.inputs = s.inputs ∧ t.quiet = s.quiet
    ∧ t.resp = s.resp ∧ t.freeCount = s.freeCount

/-- Every byte outside MSG[0 .. 16*nblk-1] reads as before: KEY, IV and the higher MSG bytes among them (20_memory.md R85). -/
abbrev MemoryKeptOutside (nblk : Nat) (s t : State) : Prop :=
  ∀ a, a < msgBase ∨ msgBase + 16 * nblk ≤ a → t.mem.read a = s.mem.read a

/-- The key schedule of a strength from the KEY bytes alone (41_key_schedule.md R180, R187). -/
def scheduleOf (k : Strength) (m : Memory) : Schedule := keyExpansion k (keyWord m) Schedule.blank

/-- Is this a register of KEY, IV or MSG? -/
def Reg.isOperand : Reg → Bool
  | .key _ | .iv _ | .msg _ => true
  | .cmd | .status | .ctrl | .len | .loaded | .reserved => false

/-- The host's hazard: a legal write of KEY, IV or MSG while BUSY = 1 (70_reset_and_hazards.md R315). -/
def OperandHazard (s : State) (a : Access) : Prop :=
  s.busy = true ∧ a.legal = true ∧ a.we = true ∧ (regAt a.addr).isOperand = true

/-- A reserved command word: RSV != 0, OP = 0x0 or OP in 0xB .. 0xF (30_encoding.md R104, R105). -/
abbrev ReservedWord (v : Word) : Prop :=
  v.extractLsb' 6 26 ≠ 0#26 ∨ v.extractLsb' 0 4 = 0#4 ∨ 0xB ≤ (v.extractLsb' 0 4).toNat

/-- A word whose OP is a mode command's, 0x1 to 0x4, with KSIZE = 0b11 (30_encoding.md R102, R105). -/
abbrev OutOfRangeKsize (v : Word) : Prop :=
  1 ≤ (v.extractLsb' 0 4).toNat ∧ (v.extractLsb' 0 4).toNat ≤ 4 ∧ v.extractLsb' 4 2 = 0b11#2

/-- The state after an input has been taken and answered, nothing else changed. -/
def State.answered (s : State) (rest : List Input) (gap : Option Nat) (r : Response) : State :=
  { s with inputs := rest, quiet := gap, resp := r }

/-- The state after a rejection: DONE, ERR and CAUSE written and nothing else (60_exceptions.md R283). -/
def State.rejected (s : State) (c : Cause) : State := { s with done := true, err := true, cause := c }

/-- Two states that differ at most in the internal storage and the latched fields (10_state.md R50). -/
def SameOutside (s t : State) : Prop :=
  t = { s with st := t.st, w := t.w, chain := t.chain, op := t.op, strength := t.strength, nblk := t.nblk,
               latchedLen := t.latchedLen }

/-- Two states that agree on every operand a resolved command reads (30_encoding.md R107): LEN, the key bytes of its
strength, the IV for CBC, and its message blocks. -/
def SameOperands (d : Resolved) (s t : State) : Prop :=
  t.len = s.len
    ∧ (∀ j < 4 * d.strength.nk, keyByte t.mem j = keyByte s.mem j)
    ∧ (d.op.mode = .cbc → ∀ j < 16, ivByte t.mem j = ivByte s.mem j)
    ∧ (∀ j < 16 * blockCount s.len, msgByte t.mem j = msgByte s.mem j)

end Sys2Proof.Machine
end

