-- ==== Sys2Proof/Certificates/Slice0/Obligations.lean ====
section
/-! DEFINITION. The statements about the model, from the numbered rules of spec/. A statement that names a gap, `quiet` or
`HostWaits` uses the model's own measure of time, engine phases between host inputs (log entry 2). -/

open Sys2Proof Sys2Proof.Machine

/-! ### Encoding (30_encoding.md) -/

/-- R100, R101: encoding a command and decoding its word gives it back, and no other word decodes to it. That the word of a
mode command with KSIZE = 0b11, which R105 and R106 reject with BADKSIZE, still decodes to its row's command, whose meaning
rejects it, is the model's DESIGN CHOICE (log entry 11); `decodeCommand` rejects it as R106 does
(`Obligations.DecodeOfEveryCommandWord`). -/
def Obligations.DecodeAndEncodeAgree : Prop :=
  (∀ i : Instr, decode (encode i) = .command i) ∧ (∀ (v : Word) (i : Instr), decode v = .command i → encode i = v)

/-- R106: Decode of every 32-bit word: BADCMD for a reserved word, BADKSIZE for a mode OP with KSIZE = 0b11, otherwise the
operation of the OP with (Nk, Nr) from KSIZE and maxlen 64 for a mode command, and with (Nk, Nr) from the OP and maxlen 16
for a single-block command. -/
def Obligations.DecodeOfEveryCommandWord : Prop :=
  ∀ v : Word,
    (ReservedWord v → decodeCommand v = .reject .badCmd)
    ∧ (¬ ReservedWord v → OutOfRangeKsize v → decodeCommand v = .reject .badKsize)
    ∧ (¬ ReservedWord v → ¬ OutOfRangeKsize v →
        ∃ d, decodeCommand v = .command d ∧ d.op.code = v.extractLsb' 0 4
          ∧ (if (v.extractLsb' 0 4).toNat ≤ 4 then
              (d.op.mode = if (v.extractLsb' 0 4).toNat ≤ 2 then .ecb else .cbc)
              ∧ (d.op.dir = if (v.extractLsb' 0 4).toNat = 1 ∨ (v.extractLsb' 0 4).toNat = 3 then .enc else .dec)
              ∧ (d.strength.nk, d.strength.nr)
                  = [(4, 10), (6, 12), (8, 14)].getD (v.extractLsb' 4 2).toNat (0, 0)
              ∧ d.maxLen = 64
            else
              d.op.mode = .blk
              ∧ (d.op.dir = if (v.extractLsb' 0 4).toNat ≤ 7 then .enc else .dec)
              ∧ (d.strength.nk, d.strength.nr)
                  = [(4, 10), (6, 12), (8, 14)].getD (((v.extractLsb' 0 4).toNat - 5) % 3) (0, 0)
              ∧ d.maxLen = 16))

/-- R109 and 95_test_vectors.md V18, V21: command words written out from the encoding decode to their commands. -/
def Obligations.SampleCommandWordsDecode : Prop :=
  decode 0x00000001#32 = .command (.ecbEnc 0b00#2) ∧ decode 0x00000021#32 = .command (.ecbEnc 0b10#2)
  ∧ decode 0x00000014#32 = .command (.cbcDec 0b01#2) ∧ decode 0x0000000A#32 = .command (.blkDec256 0b00#2)
  ∧ decode 0x00000035#32 = .command (.blkEnc128 0b11#2) ∧ decode 0x00000041#32 = .reject .badCmd
  ∧ decode 0x0000000B#32 = .reject .badCmd

/-! ### Field arithmetic, substitution and round transforms (40_gf_sbox.md) -/

/-- R134: gmul is commutative and associative, distributes over exclusive-or, has identity 0x01, and gmul(0x00, x) = 0x00. -/
def Obligations.FieldMultiplicationLaws : Prop :=
  ∀ a b c : Byte,
    gmul a b = gmul b a ∧ gmul (gmul a b) c = gmul a (gmul b c) ∧ gmul a (b ^^^ c) = gmul a b ^^^ gmul a c
    ∧ gmul a 0x01#8 = a ∧ gmul 0x00#8 a = 0x00#8

/-- R136, R138, R139, R140: ginv is the unique inverse, SBox is the affine map of it, and InvSBox inverts SBox both ways. -/
def Obligations.SubstitutionIsAffineOfInverse : Prop :=
  ∀ b y : Byte,
    (gmul b y = 0x01#8 → ginv b = y ∧ sbox b = affine y ∧ invSbox (affine y) = b)
    ∧ (b ≠ 0x00#8 → gmul b (ginv b) = 0x01#8) ∧ ginv 0x00#8 = 0x00#8 ∧ sbox 0x00#8 = affine 0x00#8
    ∧ invSbox y = ginv (affineInv y) ∧ (sbox b = y ↔ invSbox y = b)

/-- R142, R144, R146, R147: each inverse round transform undoes its forward one, and AddRoundKey is its own inverse. -/
def Obligations.RoundTransformsInvert : Prop :=
  ∀ (x : Block) (w : Schedule) (r : Nat),
    invSubBytes (subBytes x) = x ∧ subBytes (invSubBytes x) = x
    ∧ invShiftRows (shiftRows x) = x ∧ shiftRows (invShiftRows x) = x
    ∧ invMixColumns (mixColumns x) = x ∧ mixColumns (invMixColumns x) = x
    ∧ addRoundKey w r (addRoundKey w r x) = x

/-! ### Key schedule (41_key_schedule.md) -/

/-- R181, R183, R184: the first Nk words are the key's bytes, first byte most significant, and every later word is the
exclusive-or of word i - Nk with the step of word i - 1: RotWord, SubWord and the round constant at i mod Nk = 0, SubWord
alone at i mod 8 = 4 for Nk = 8, nothing else. -/
def Obligations.KeyScheduleRecurrence : Prop :=
  ∀ (k : Strength) (m : Memory) (w0 : Schedule),
    (∀ i < k.nk, scheduleWord (keyExpansion k (keyWord m) w0) i
        = keyByte m (4 * i) ++ keyByte m (4 * i + 1) ++ keyByte m (4 * i + 2) ++ keyByte m (4 * i + 3))
    ∧ (∀ i, k.nk ≤ i → i < 4 * (k.nr + 1) →
        scheduleWord (keyExpansion k (keyWord m) w0) i
          = scheduleWord (keyExpansion k (keyWord m) w0) (i - k.nk) ^^^
            (if i % k.nk = 0 then
              subWord (rotWord (scheduleWord (keyExpansion k (keyWord m) w0) (i - 1)))
                ^^^ (xtimePow (i / k.nk - 1) 0x01#8 ++ 0#24)
            else if k.nk = 8 ∧ i % k.nk = 4 then subWord (scheduleWord (keyExpansion k (keyWord m) w0) (i - 1))
            else scheduleWord (keyExpansion k (keyWord m) w0) (i - 1)))

/-- R46, R187: the schedule's words do not depend on what an earlier command left in W. -/
def Obligations.ScheduleIgnoresEarlierWords : Prop :=
  ∀ (k : Strength) (m : Memory) (w w' : Schedule), ∀ i < k.words,
    scheduleWord (keyExpansion k (keyWord m) w) i = scheduleWord (keyExpansion k (keyWord m) w') i

/-- R186: after acceptance the sequencer computes the words in increasing order, one a phase, and when it reaches the first
block's first stage all Nb * (Nr + 1) words are there and MSG is untouched. -/
def Obligations.ExpansionCompletesBeforeFirstRound : Prop :=
  ∀ (d : Resolved) (s : State),
    (∀ j < d.strength.words - d.strength.nk, (runPhases j (accept d s)).seq = .expand (d.strength.nk + j))
    ∧ (runPhases (d.strength.words - d.strength.nk) (accept d s)).seq
        = .block (if d.op = .cbcDec then blockCount s.len - 1 else 0)
            (if d.op.dir = .dec then d.strength.nr else 0)
    ∧ (runPhases (d.strength.words - d.strength.nk) (accept d s)).mem = s.mem
    ∧ ∀ i < d.strength.words,
        scheduleWord (runPhases (d.strength.words - d.strength.nk) (accept d s)).w i
          = scheduleWord (scheduleOf d.strength s.mem) i

/-! ### Block cipher (42_block_cipher.md) -/

/-- R205: for every strength, every schedule and every block, InvCipher undoes Cipher and Cipher undoes InvCipher. -/
def Obligations.InvCipherUndoesCipher : Prop :=
  ∀ (k : Strength) (w : Schedule) (b : Block),
    invCipher w k.nr (cipher w k.nr b) = b ∧ cipher w k.nr (invCipher w k.nr b) = b

/-! ### Commands (43_modes.md) -/

/-- R230, R49: an accepted command, seen before the engine's first phase: BUSY = 1, the outcome cleared, the fields latched,
the sequencer at EXPAND(Nk), and no storage or other register changed. -/
def Obligations.AcceptedCommandIsLatched : Prop :=
  ∀ (i : Instr) (d : Resolved) (s : State),
    i.resolve = .command d → Ready d s → s.quiet = some 0 →
    ∃ t, exec i s = .next t ∧ t.busy = true ∧ t.done = false ∧ t.err = false ∧ t.cause = .none
      ∧ t.op = i.op ∧ t.strength = d.strength ∧ t.nblk = (s.len.toNat + 15) / 16 ∧ t.latchedLen = s.len
      ∧ t.seq = .expand d.strength.nk ∧ t.mem = s.mem ∧ RegistersKept s t

/-- R233, R247: ECB_ENC replaces every block of the message by its Cipher, completes with success, and changes nothing else. -/
def Obligations.EcbEncTransformsEveryBlock : Prop :=
  ∀ (ksize : BitVec 2) (k : Strength) (s : State),
    strengthOf ksize = some k → Ready ⟨.ecbEnc, k, 64⟩ s → HostWaits (commandPhases k (blockCount s.len)) s →
    ∃ t, exec (.ecbEnc ksize) s = .next t ∧ Succeeded t ∧ RegistersKept s t
      ∧ MemoryKeptOutside (blockCount s.len) s t
      ∧ ∀ b < blockCount s.len, msgBlock t.mem b = cipher (scheduleOf k s.mem) k.nr (msgBlock s.mem b)

/-- R234, R247: ECB_DEC replaces every block of the message by its InvCipher, completes with success, and changes nothing
else. -/
def Obligations.EcbDecTransformsEveryBlock : Prop :=
  ∀ (ksize : BitVec 2) (k : Strength) (s : State),
    strengthOf ksize = some k → Ready ⟨.ecbDec, k, 64⟩ s → HostWaits (commandPhases k (blockCount s.len)) s →
    ∃ t, exec (.ecbDec ksize) s = .next t ∧ Succeeded t ∧ RegistersKept s t
      ∧ MemoryKeptOutside (blockCount s.len) s t
      ∧ ∀ b < blockCount s.len, msgBlock t.mem b = invCipher (scheduleOf k s.mem) k.nr (msgBlock s.mem b)

/-- R235, R247: CBC_ENC: block 0 is XORed with the IV and block b with the ciphertext of block b - 1 before its Cipher. -/
def Obligations.CbcEncChainsCiphertext : Prop :=
  ∀ (ksize : BitVec 2) (k : Strength) (s : State),
    strengthOf ksize = some k → Ready ⟨.cbcEnc, k, 64⟩ s → HostWaits (commandPhases k (blockCount s.len)) s →
    ∃ t, exec (.cbcEnc ksize) s = .next t ∧ Succeeded t ∧ RegistersKept s t
      ∧ MemoryKeptOutside (blockCount s.len) s t
      ∧ ∀ b < blockCount s.len, msgBlock t.mem b
          = cipher (scheduleOf k s.mem) k.nr
              ((msgBlock s.mem b).xor (if b = 0 then ivBlock s.mem else msgBlock t.mem (b - 1)))

/-- R236, R247: CBC_DEC: P_b = InvCipher(C_b) ^ C_(b-1) with C_(-1) = IV and every C the MSG contents at acceptance. -/
def Obligations.CbcDecUsesOriginalCiphertext : Prop :=
  ∀ (ksize : BitVec 2) (k : Strength) (s : State),
    strengthOf ksize = some k → Ready ⟨.cbcDec, k, 64⟩ s → HostWaits (commandPhases k (blockCount s.len)) s →
    ∃ t, exec (.cbcDec ksize) s = .next t ∧ Succeeded t ∧ RegistersKept s t
      ∧ MemoryKeptOutside (blockCount s.len) s t
      ∧ ∀ b < blockCount s.len, msgBlock t.mem b
          = (invCipher (scheduleOf k s.mem) k.nr (msgBlock s.mem b)).xor
              (if b = 0 then ivBlock s.mem else msgBlock s.mem (b - 1))

/-- R237, R238, R239, R247: the three single-block encryptions, at the strength of the opcode whatever KSIZE holds, for
every LEN in 1 .. 16: MSG[0..15] becomes its Cipher and nothing else changes. -/
def Obligations.BlkEncTransformsFirstBlock : Prop :=
  ∀ (ksize : BitVec 2) (s : State),
    ∀ p ∈ [(Instr.blkEnc128 ksize, Op.blkEnc128, Strength.k128), (.blkEnc192 ksize, .blkEnc192, .k192),
           (.blkEnc256 ksize, .blkEnc256, .k256)],
      Ready ⟨p.2.1, p.2.2, 16⟩ s → HostWaits (commandPhases p.2.2 1) s →
      ∃ t, exec p.1 s = .next t ∧ Succeeded t ∧ RegistersKept s t ∧ MemoryKeptOutside 1 s t
        ∧ msgBlock t.mem 0 = cipher (scheduleOf p.2.2 s.mem) p.2.2.nr (msgBlock s.mem 0)

/-- R240, R241, R242, R247: the three single-block decryptions, likewise with InvCipher. -/
def Obligations.BlkDecTransformsFirstBlock : Prop :=
  ∀ (ksize : BitVec 2) (s : State),
    ∀ p ∈ [(Instr.blkDec128 ksize, Op.blkDec128, Strength.k128), (.blkDec192 ksize, .blkDec192, .k192),
           (.blkDec256 ksize, .blkDec256, .k256)],
      Ready ⟨p.2.1, p.2.2, 16⟩ s → HostWaits (commandPhases p.2.2 1) s →
      ∃ t, exec p.1 s = .next t ∧ Succeeded t ∧ RegistersKept s t ∧ MemoryKeptOutside 1 s t
        ∧ msgBlock t.mem 0 = invCipher (scheduleOf p.2.2 s.mem) p.2.2.nr (msgBlock s.mem 0)

/-- R246: the decrypting command after the encrypting command of the same mode, KEY, IV, LEN and KSIZE unchanged, restores
the message; both complete with success and every byte of KEY, IV and MSG reads as at the start. -/
def Obligations.DecryptAfterEncryptRestores : Prop :=
  ∀ (ksize : BitVec 2) (d : Resolved) (s : State),
    ∀ p ∈ [(Instr.ecbEnc ksize, Instr.ecbDec ksize), (.cbcEnc ksize, .cbcDec ksize),
           (.blkEnc128 ksize, .blkDec128 ksize), (.blkEnc192 ksize, .blkDec192 ksize),
           (.blkEnc256 ksize, .blkDec256 ksize)],
      p.1.resolve = .command d → Ready d s → HostWaits (commandPhases d.strength (blockCount s.len)) s →
      ∃ t u, exec p.1 s = .next t ∧ Succeeded t ∧ exec p.2 t = .next u ∧ Succeeded u
        ∧ RegistersKept s u ∧ ∀ a, u.mem.read a = s.mem.read a

/-- R248: CBC_DEC of two messages that differ in one bit of ciphertext block i, not the last: blocks before i are equal,
block i differs, block i + 1 differs in exactly that bit, and the blocks after it are equal. -/
def Obligations.CbcBitErrorStaysInTwoBlocks : Prop :=
  ∀ (ksize : BitVec 2) (k : Strength) (s s' : State) (i j q : Nat),
    strengthOf ksize = some k → Ready ⟨.cbcDec, k, 64⟩ s → HostWaits (commandPhases k (blockCount s.len)) s →
    i + 1 < blockCount s.len → j < 16 → q < 8 →
    s' = { s with mem := s'.mem } →
    (∀ a, s'.mem.read a
        = if a = msgBase + (16 * i + j) then s.mem.read a ^^^ (1#8 <<< q) else s.mem.read a) →
    ∃ t t', exec (.cbcDec ksize) s = .next t ∧ exec (.cbcDec ksize) s' = .next t'
      ∧ (∀ b, b < i ∨ i + 2 ≤ b → msgBlock t'.mem b = msgBlock t.mem b)
      ∧ msgBlock t'.mem i ≠ msgBlock t.mem i
      ∧ ∀ n < 16, msgByte t'.mem (16 * (i + 1) + n)
          = if n = j then msgByte t.mem (16 * (i + 1) + n) ^^^ (1#8 <<< q) else msgByte t.mem (16 * (i + 1) + n)

/-- R31, R32, R107, R243: what a command gives in MSG depends on its operands alone: LEN, the key bytes of its strength,
the IV for CBC, and its message blocks, padding included. -/
def Obligations.OnlyOperandsMatter : Prop :=
  ∀ (i : Instr) (d : Resolved) (s s' : State),
    i.resolve = .command d → Ready d s → Ready d s' → SameOperands d s s' →
    HostWaits (commandPhases d.strength (blockCount s.len)) s →
    HostWaits (commandPhases d.strength (blockCount s.len)) s' →
    ∃ t t', exec i s = .next t ∧ exec i s' = .next t'
      ∧ ∀ j < 16 * blockCount s.len, msgByte t'.mem j = msgByte t.mem j

/-- R50: the state block, the key schedule, the chaining register and the latched fields of an IDLE engine cannot affect a
later command, nor any register the host reads. -/
def Obligations.InternalStateIsUnobservable : Prop :=
  ∀ (i : Instr) (s s' : State), Idle s → SameOutside s s' → s.quiet = none →
    (∀ r, regValue s' r = regValue s r) ∧ irq s' = irq s
    ∧ ∃ t t', exec i s = .next t ∧ exec i s' = .next t' ∧ SameOutside t t'

/-! ### Rejection (60_exceptions.md) -/

/-- R281, R282, R283: a CMD write while no command runs is checked in the order BADCMD, BADKSIZE, NOKEY, NOIV, LENZERO,
LENMAX; the first check that fails is the CAUSE, and the rejection writes DONE, ERR and CAUSE and nothing else. -/
def Obligations.FirstFailingCheckRejects : Prop :=
  ∀ (v : Word) (s : State), s.busy = false →
    (ReservedWord v → commandWrite v s = .next (s.rejected .badCmd))
    ∧ (¬ ReservedWord v → OutOfRangeKsize v → commandWrite v s = .next (s.rejected .badKsize))
    ∧ ∀ d, decodeCommand v = .command d →
        ((∃ n < d.strength.nk, s.keyw.getLsbD n = false) → commandWrite v s = .next (s.rejected .noKey))
        ∧ ((∀ n < d.strength.nk, s.keyw.getLsbD n = true) →
            (d.op.mode = .cbc → s.ivw ≠ 0xF#4 → commandWrite v s = .next (s.rejected .noIv))
            ∧ ((d.op.mode = .cbc → s.ivw = 0xF#4) →
                (s.len = 0#32 → commandWrite v s = .next (s.rejected .lenZero))
                ∧ (d.maxLen < s.len.toNat → commandWrite v s = .next (s.rejected .lenMax))))

/-- R102, R282: each mode command with KSIZE = 0b11 is rejected with BADKSIZE before any other operand is looked at, and
nothing but the outcome changes. -/
def Obligations.ModeCommandWithBadKsizeRejects : Prop :=
  ∀ s : State, s.busy = false →
    ∀ i ∈ [Instr.ecbEnc 0b11#2, .ecbDec 0b11#2, .cbcEnc 0b11#2, .cbcDec 0b11#2],
      exec i s = .next (s.rejected .badKsize)

/-- R40, R281: the STATUS word of a rejection: 0x16, 0x26, 0x36, 0x46, 0x56, 0x66 for the six causes. -/
def Obligations.RejectionStatusWords : Prop :=
  ∀ s : State, s.busy = false →
    ∀ p ∈ [(Cause.badCmd, 0x16#32), (.badKsize, 0x26#32), (.noKey, 0x36#32), (.noIv, 0x46#32), (.lenZero, 0x56#32),
           (.lenMax, 0x66#32)],
      statusWord (s.rejected p.1) = p.2

/-! ### Frame and engine (20_memory.md R85, 43_modes.md R247, 70_reset_and_hazards.md R323) -/

/-- R85: every command, in every state of the invariant and however far the engine gets, leaves LEN, CTRL, LOADED and every
byte outside the message blocks of the running command alone; a rejected command writes no storage. The engine's phases
have the same frame. -/
def Obligations.EngineWritesOnlyMessageBlocks : Prop :=
  (∀ (i : Instr) (s t : State), Inv s → exec i s = .next t →
      RegistersKept s t ∧ MemoryKeptOutside (if s.busy then s.nblk else blockCount s.len) s t
      ∧ (s.busy = false → t.err = true → t.mem = s.mem))
  ∧ (∀ (n : Nat) (s : State), Inv s →
      RegistersKept s (runPhases n s) ∧ MemoryKeptOutside s.nblk s (runPhases n s))

/-- R247: a running command always completes: with no further host input one step ends it with BUSY = 0, DONE = 1, ERR = 0,
CAUSE = NONE, seq = IDLE. -/
def Obligations.RunningCommandCompletes : Prop :=
  ∀ s : State, Inv s → s.busy = true → s.inputs = [] →
    ∃ t, step s = .next t ∧ Succeeded t ∧ RegistersKept s t ∧ MemoryKeptOutside s.nblk s t

/-- R108, R110, R323: the POLL of RUN, for BUSY = 0, ends after finitely many reads, whatever the gaps between them. -/
def Obligations.PollOfBusyEnds : Prop :=
  ∀ (s : State) (gap : Option Nat) (rest : List Input), Inv s →
    s.inputs = .poll 0x004#12 0x00000001#32 0x00000000#32 gap :: rest →
    ∃ n ≤ Config.maxPhases + 1, ∃ t, Sys2Proof.core.run n s = .next t ∧ t.inputs = rest ∧ t.busy = false
      ∧ ∃ v : Word, t.resp = .readOk v ∧ v &&& 0x00000001#32 = 0x00000000#32

/-! ### Host accesses (20_memory.md) -/

/-- R41, R74, R76: a write of KEYk while no command runs: the register reads back the value, its byte lanes are
little-endian, KEYW[k] is set, and nothing else changes. -/
def Obligations.KeyWriteStoresAndMarks : Prop :=
  ∀ (s : State) (k : Nat) (v : Word) (gap : Option Nat) (rest : List Input), k < 8 → Idle s →
    s.inputs = wr (BitVec.ofNat 12 (0x020 + 4 * k)) v gap :: rest →
    ∃ m, step s = .next { s.answered rest gap .writeOk with mem := m, keyw := s.keyw ||| (1#8 <<< k) }
      ∧ laneWord m (0x020 + 4 * k) = v ∧ (∀ j < 4, keyByte m (4 * k + j) = v.extractLsb' (8 * j) 8)
      ∧ ∀ a, a < 0x020 + 4 * k ∨ 0x020 + 4 * k + 4 ≤ a → m.read a = s.mem.read a

/-- R42, R74, R76: a write of IVk while no command runs, likewise, with IVW[k]. -/
def Obligations.IvWriteStoresAndMarks : Prop :=
  ∀ (s : State) (k : Nat) (v : Word) (gap : Option Nat) (rest : List Input), k < 4 → Idle s →
    s.inputs = wr (BitVec.ofNat 12 (0x040 + 4 * k)) v gap :: rest →
    ∃ m, step s = .next { s.answered rest gap .writeOk with mem := m, ivw := s.ivw ||| (1#4 <<< k) }
      ∧ laneWord m (0x040 + 4 * k) = v ∧ (∀ j < 4, ivByte m (4 * k + j) = v.extractLsb' (8 * j) 8)
      ∧ ∀ a, a < 0x040 + 4 * k ∨ 0x040 + 4 * k + 4 ≤ a → m.read a = s.mem.read a

/-- R74, R76: a write of MSGk while no command runs, likewise, with no LOADED bit. -/
def Obligations.MsgWriteStores : Prop :=
  ∀ (s : State) (k : Nat) (v : Word) (gap : Option Nat) (rest : List Input), k < 16 → Idle s →
    s.inputs = wr (BitVec.ofNat 12 (0x080 + 4 * k)) v gap :: rest →
    ∃ m, step s = .next { s.answered rest gap .writeOk with mem := m }
      ∧ laneWord m (0x080 + 4 * k) = v ∧ (∀ j < 4, msgByte m (4 * k + j) = v.extractLsb' (8 * j) 8)
      ∧ ∀ a, a < 0x080 + 4 * k ∨ 0x080 + 4 * k + 4 ≤ a → m.read a = s.mem.read a

/-- R35, R34, R37, R40, R42: writes of STATUS, CTRL, LEN and LOADED while no command runs: DONE is cleared by a 1 in bit 1,
IRQEN takes bit 0, LEN takes the word, LOADED and every other STATUS bit ignore the write. -/
def Obligations.ControlRegisterWrites : Prop :=
  ∀ (s : State) (v : Word) (gap : Option Nat) (rest : List Input), Idle s →
    (s.inputs = wr 0x004#12 v gap :: rest →
      step s = .next { s.answered rest gap .writeOk with done := if v.getLsbD 1 then false else s.done })
    ∧ (s.inputs = wr 0x008#12 v gap :: rest →
      step s = .next { s.answered rest gap .writeOk with irqEn := v.getLsbD 0 })
    ∧ (s.inputs = wr 0x00C#12 v gap :: rest → step s = .next { s.answered rest gap .writeOk with len := v })
    ∧ (s.inputs = wr 0x010#12 v gap :: rest → step s = .next (s.answered rest gap .writeOk))

/-- R75, R77: a legal read, of any register but MSG while a command runs, answers the register's value and changes nothing
else; the engine goes on as without it. -/
def Obligations.ReadAnswersRegisterValue : Prop :=
  ∀ (s : State) (off : Offset) (gap : Option Nat) (rest : List Input),
    off.toNat % 4 = 0 → s.inputs = rd off gap :: rest →
    (s.busy = true → ¬ (0x080 ≤ off.toNat ∧ off.toNat < 0x0C0)) →
    ∃ v, step s = .next (advanceBy gap (s.answered rest gap (.readOk v)))
      ∧ (off = 0x000#12 → v = 0#32)
      ∧ (off = 0x004#12 → v = 0#24 ++ causeCode s.cause ++ 0#1 ++ BitVec.ofBool s.err ++ BitVec.ofBool s.done
          ++ BitVec.ofBool s.busy)
      ∧ (off = 0x008#12 → v = 0#31 ++ BitVec.ofBool s.irqEn)
      ∧ (off = 0x00C#12 → v = s.len)
      ∧ (off = 0x010#12 → v = 0#20 ++ s.ivw ++ s.keyw)
      ∧ (∀ k < 8, off.toNat = 0x020 + 4 * k →
          v = keyByte s.mem (4 * k + 3) ++ keyByte s.mem (4 * k + 2) ++ keyByte s.mem (4 * k + 1) ++ keyByte s.mem (4 * k))
      ∧ (∀ k < 4, off.toNat = 0x040 + 4 * k →
          v = ivByte s.mem (4 * k + 3) ++ ivByte s.mem (4 * k + 2) ++ ivByte s.mem (4 * k + 1) ++ ivByte s.mem (4 * k))
      ∧ (∀ k < 16, off.toNat = 0x080 + 4 * k →
          v = msgByte s.mem (4 * k + 3) ++ msgByte s.mem (4 * k + 2) ++ msgByte s.mem (4 * k + 1) ++ msgByte s.mem (4 * k))
      ∧ (0x014 ≤ off.toNat ∧ off.toNat < 0x020 ∨ 0x050 ≤ off.toNat ∧ off.toNat < 0x080 ∨ 0x0C0 ≤ off.toNat → v = 0#32)

/-- R73: an aligned 4-byte access to a reserved offset reads 0x00000000, and a write to it is ignored, with an OK answer. -/
def Obligations.ReservedOffsetsReadZeroIgnoreWrites : Prop :=
  ∀ (s : State) (off : Offset) (v : Word) (gap : Option Nat) (rest : List Input),
    off.toNat % 4 = 0 →
    0x014 ≤ off.toNat ∧ off.toNat < 0x020 ∨ 0x050 ≤ off.toNat ∧ off.toNat < 0x080 ∨ 0x0C0 ≤ off.toNat →
    (s.inputs = rd off gap :: rest → step s = .next (advanceBy gap (s.answered rest gap (.readOk 0#32))))
    ∧ (s.inputs = wr off v gap :: rest → step s = .next (advanceBy gap (s.answered rest gap .writeOk)))

/-- R72: an access of any width but 4 bytes or at an offset that is no multiple of 4 is answered with BusError and changes
no state, at every offset; a running engine goes on as without it. -/
def Obligations.IllegalAccessIsBusError : Prop :=
  ∀ (s : State) (a : Access) (gap : Option Nat) (rest : List Input),
    a.size ≠ 0b10#2 ∨ a.addr.toNat % 4 ≠ 0 → s.inputs = .access a gap :: rest →
    step s = .next (advanceBy gap (s.answered rest gap .busError))

/-! ### Hazards (70_reset_and_hazards.md) -/

/-- 70_reset_and_hazards.md section 3, 20_memory.md section 2: a step faults exactly when the host's next input is a legal
write of KEY, IV or MSG while BUSY = 1. R315 gives that such a write is a fault. That an illegal access there is a BusError
and no hazard (R72), and that no other step faults, is the model's reading (log entry 16, DEDUCED). -/
def Obligations.FaultExactlyOnOperandHazard : Prop :=
  ∀ s : State,
    (∃ f, step s = .fault f)
      ↔ ∃ a gap rest, s.inputs = .access a gap :: rest ∧ s.busy = true ∧ a.size = 0b10#2 ∧ a.addr.toNat % 4 = 0
          ∧ a.we = true
          ∧ (0x020 ≤ a.addr.toNat ∧ a.addr.toNat < 0x050 ∨ 0x080 ≤ a.addr.toNat ∧ a.addr.toNat < 0x0C0)

/-- R316: a read of MSG while BUSY = 1 answers the next free value and changes nothing else of the block. -/
def Obligations.MsgReadWhileBusyIsFree : Prop :=
  ∀ (s : State) (off : Offset) (gap : Option Nat) (rest : List Input),
    s.busy = true → off.toNat % 4 = 0 → 0x080 ≤ off.toNat → off.toNat < 0x0C0 → s.inputs = rd off gap :: rest →
    step s = .next (advanceBy gap { s.answered rest gap (.readOk (Config.freeWord s.freeCount)) with
      freeCount := s.freeCount + 1 })

/-- R317: a CMD write while BUSY = 1 is ignored, whatever its word: the running command goes on as without it. -/
def Obligations.CommandWhileBusyIsIgnored : Prop :=
  ∀ (s : State) (v : Word) (gap : Option Nat) (rest : List Input),
    s.busy = true → s.inputs = wr 0x000#12 v gap :: rest →
    step s = .next (advanceBy gap (s.answered rest gap .writeOk))

/-- R318: while BUSY = 1, a LEN write is stored and does not touch the running command; a CTRL write takes effect at once;
a STATUS write has no effect. In each case the engine goes on as without the write. -/
def Obligations.ControlWritesWhileBusy : Prop :=
  ∀ (s : State) (v : Word) (gap : Option Nat) (rest : List Input), Inv s → s.busy = true →
    (s.inputs = wr 0x00C#12 v gap :: rest →
      step s = .next { advanceBy gap (s.answered rest gap .writeOk) with len := v })
    ∧ (s.inputs = wr 0x008#12 v gap :: rest →
      step s = .next { advanceBy gap (s.answered rest gap .writeOk) with irqEn := v.getLsbD 0 })
    ∧ (s.inputs = wr 0x004#12 v gap :: rest →
      step s = .next (advanceBy gap (s.answered rest gap .writeOk)))

/-! ### Interrupt, reset, invariant (60_exceptions.md R285, 70_reset_and_hazards.md R310 - R312) -/

/-- R285: irq is the level DONE & IRQEN in every state: after a command that is no longer running, completed or rejected,
irq = IRQEN; an accepted CMD write deasserts it while the command runs; a write of 1 to STATUS bit 1 deasserts it; a CTRL
write makes it DONE & IRQEN at once, so IRQEN = 0 deasserts it; reset deasserts it. -/
def Obligations.IrqFollowsDoneAndEnable : Prop :=
  (∀ s : State, irq s = (s.done && s.irqEn)) ∧
  (∀ (i : Instr) (s t : State), s.busy = false → exec i s = .next t → t.busy = true → irq t = false) ∧
  (∀ (i : Instr) (s t : State), s.busy = false → exec i s = .next t → t.busy = false → irq t = s.irqEn)
  ∧ (∀ (s : State) (v : Word) (gap : Option Nat) (rest : List Input), Idle s → v.getLsbD 1 = true →
      s.inputs = wr 0x004#12 v gap :: rest → ∃ t, step s = .next t ∧ irq t = false)
  ∧ (∀ (s : State) (v : Word) (gap : Option Nat) (rest : List Input), Idle s →
      s.inputs = wr 0x008#12 v gap :: rest → ∃ t, step s = .next t ∧ irq t = (s.done && v.getLsbD 0))
  ∧ irq State.reset = false

/-- R311: after reset a read of every register answers 0x00000000 and irq = 0. -/
def Obligations.ResetReadsZeroEverywhere : Prop :=
  (∀ off : Offset, off.toNat % 4 = 0 →
    step { State.reset with inputs := [rd off none] } = .next { State.reset with resp := .readOk 0#32 })
  ∧ irq State.reset = false

/-- R310, R312: a clock edge with rst_n = 0, also during a command: every byte of KEY, IV and MSG reads 0, LEN, CTRL, LOADED
and the outcome are 0, seq is IDLE, irq is 0, and the aborted command's DONE is not set. -/
def Obligations.ResetEdgeAborts : Prop :=
  ∀ (s : State) (rest : List Input), s.inputs = .resetEdge :: rest →
    ∃ t, step s = .next t ∧ (∀ a, t.mem.read a = 0#8) ∧ t.len = 0#32 ∧ t.irqEn = false ∧ t.busy = false
      ∧ t.done = false ∧ t.err = false ∧ t.cause = .none ∧ t.keyw = 0#8 ∧ t.ivw = 0#4 ∧ t.seq = .idle ∧ irq t = false
      ∧ t.inputs = rest

/-- The invariant of the block holds after reset. -/
def Obligations.InvariantHoldsAtReset : Prop := Inv State.reset

/-- The invariant of the block is kept by every step: canonical memory, BUSY exactly outside IDLE, a legal phase and
running command, ERR exactly with a cause, unloaded operand words at zero. -/
def Obligations.InvariantKeptByEveryStep : Prop := ∀ s t : State, Inv s → step s = .next t → Inv t

/-- R31, R32: KEY and IV are changed by host writes of their own registers and by reset alone; the engine never writes them. -/
def Obligations.KeyAndIvChangeOnlyByHostWrite : Prop :=
  ∀ (s t : State) (a : Nat), step s = .next t → a < 0x050 → t.mem.read a ≠ s.mem.read a →
    (∃ rest, s.inputs = .resetEdge :: rest)
    ∨ ∃ (off : Offset) (v : Word) (gap : Option Nat) (rest : List Input), s.inputs = wr off v gap :: rest
        ∧ off.toNat = a / 4 * 4 ∧ 0x020 ≤ a ∧ s.busy = false

/-- R41, R42: a LOADED bit, once set, is cleared only by reset, and is set only by a host write of its own register. -/
def Obligations.LoadedBitsSetByWritesClearedByReset : Prop :=
  ∀ s t : State, step s = .next t → (∀ rest, s.inputs ≠ .resetEdge :: rest) →
    (∀ k, s.keyw.getLsbD k = true → t.keyw.getLsbD k = true)
    ∧ (∀ k, s.ivw.getLsbD k = true → t.ivw.getLsbD k = true)
    ∧ (∀ k, s.keyw.getLsbD k = false → t.keyw.getLsbD k = true →
        ∃ v gap rest, s.inputs = wr (BitVec.ofNat 12 (0x020 + 4 * k)) v gap :: rest)
    ∧ (∀ k, s.ivw.getLsbD k = false → t.ivw.getLsbD k = true →
        ∃ v gap rest, s.inputs = wr (BitVec.ofNat 12 (0x040 + 4 * k)) v gap :: rest)

/-! ### The step -/

/-- R43, R230: the step that serves a CMD write whose word decodes to a command is exec of that command, at the state with
the input taken off the list, its gap noted and the write answered; and so for a word placed by `withFetchWord`. -/
def Obligations.StepRunsDecodedCommand : Prop :=
  (∀ (s : State) (v : Word) (i : Instr) (gap : Option Nat) (rest : List Input),
    s.inputs = wr 0x000#12 v gap :: rest → decode v = .command i →
    step s = exec i (s.answered rest gap .writeOk))
  ∧ ∀ (s : State) (i : Instr),
      step (s.withFetchWord 32 (encode i).toNat) = exec i (s.answered s.inputs none .writeOk)

/-- R110: LDKEY of 4 * Nk bytes on an IDLE block stores the key bytes and marks the strength's key words, in Nk steps, and
changes no other byte, flag or register. -/
def Obligations.LoadKeyStoresKeyBytes : Prop :=
  ∀ (k : Strength) (bytes : List Byte) (s : State) (rest : List Input), bytes.length = 4 * k.nk → Idle s →
    s.inputs = ldKey bytes ++ rest →
    ∃ t, Sys2Proof.core.run k.nk s = .next t ∧ t.inputs = rest ∧ Idle t
      ∧ (∀ j < 4 * k.nk, keyByte t.mem j = bytes.getD j 0#8) ∧ keyLoaded t.keyw k = true
      ∧ (∀ n, k.nk ≤ n → t.keyw.getLsbD n = s.keyw.getLsbD n)
      ∧ (∀ a, a < 0x020 ∨ 0x020 + 4 * k.nk ≤ a → t.mem.read a = s.mem.read a)
      ∧ t.len = s.len ∧ t.irqEn = s.irqEn ∧ t.done = s.done ∧ t.err = s.err ∧ t.cause = s.cause ∧ t.ivw = s.ivw
end

