-- ==== Sys2Proof/Laws/Memory.lean ====
section
/-! SUPPORT. The laws of the memory: read after write, canonical form kept, runs of bytes and message blocks. -/

namespace Sys2Proof.Machine

@[simp] theorem Memory.read_nil (a : Nat) : Memory.read [] a = 0#8 := rfl

theorem Memory.read_cons (c : Host.Cell) (m : Memory) (a : Nat) :
    Memory.read (c :: m) a = if c.1 = a then c.2 else m.read a := rfl

theorem Memory.read_erase_same (m : Memory) (a : Nat) : (m.erase a).read a = 0#8 := by
  induction m with
  | nil => rfl
  | cons c m ih =>
    by_cases h : c.1 = a
    · simpa [Memory.erase, List.filter_cons, h] using ih
    · simpa [Memory.erase, List.filter_cons, h, Memory.read_cons] using ih

theorem Memory.read_erase_other (m : Memory) {a b : Nat} (h : b ≠ a) : (m.erase a).read b = m.read b := by
  induction m with
  | nil => rfl
  | cons c m ih =>
    by_cases hc : c.1 = a
    · have : c.1 ≠ b := fun e => h (e.symm.trans hc)
      simpa [Memory.erase, List.filter_cons, hc, Memory.read_cons, this, h.symm] using ih
    · by_cases hb : c.1 = b
      · simp [Memory.erase, Memory.read_cons, hb, h]
      · simpa [Memory.erase, List.filter_cons, hc, Memory.read_cons, hb] using ih

theorem Memory.read_insert_same (m : Memory) (a : Nat) (v : Byte) (h : ∀ c ∈ m, c.1 ≠ a) :
    (m.insert a v).read a = v := by
  induction m with
  | nil => simp [Memory.insert, Memory.read_cons]
  | cons c m ih =>
    have hm := ih fun d hd => h d (List.mem_cons_of_mem _ hd)
    have hc : c.1 ≠ a := h c List.mem_cons_self
    by_cases hlt : a < c.1 <;> simp [Memory.insert, hlt, Memory.read_cons, hc, hm]

theorem Memory.read_insert_other (m : Memory) {a b : Nat} (v : Byte) (h : b ≠ a) :
    (m.insert a v).read b = m.read b := by
  induction m with
  | nil => simp [Memory.insert, Memory.read_cons, h.symm]
  | cons c m ih =>
    by_cases hlt : a < c.1 <;> simp [Memory.insert, hlt, Memory.read_cons, h.symm, ih]

theorem Memory.mem_erase {m : Memory} {a : Nat} {c : Host.Cell} : c ∈ m.erase a ↔ c ∈ m ∧ c.1 ≠ a := by
  simp [Memory.erase]

/-- A read after a write of the same byte gives the value written. -/
@[simp] theorem Memory.read_write_same (m : Memory) (a : Nat) (v : Byte) : (m.write a v).read a = v := by
  by_cases h : v = 0#8
  · simp [Memory.write, h, Memory.read_erase_same]
  · simp only [Memory.write, h, if_false]
    exact Memory.read_insert_same _ _ _ fun c hc => (Memory.mem_erase.mp hc).2

/-- A write leaves every other byte alone. -/
theorem Memory.read_write_other (m : Memory) {a b : Nat} (v : Byte) (h : b ≠ a) :
    (m.write a v).read b = m.read b := by
  by_cases hv : v = 0#8
  · simp [Memory.write, hv, Memory.read_erase_other m h]
  · simp only [Memory.write, hv, if_false]
    rw [Memory.read_insert_other _ _ h, Memory.read_erase_other m h]

theorem Memory.mem_insert {m : Memory} {a : Nat} {v : Byte} {c : Host.Cell} :
    c ∈ m.insert a v ↔ c = (a, v) ∨ c ∈ m := by
  induction m with
  | nil => simp [Memory.insert]
  | cons d m ih =>
    by_cases hlt : a < d.1
    · simp [Memory.insert, hlt]
    · simp only [Memory.insert, hlt, if_false, List.mem_cons, ih]
      tauto

theorem Memory.pairwise_insert {m : Memory} {a : Nat} {v : Byte} (hm : m.Pairwise (fun c d => c.1 < d.1))
    (ha : ∀ c ∈ m, c.1 ≠ a) : (m.insert a v).Pairwise (fun c d => c.1 < d.1) := by
  induction m with
  | nil => simp [Memory.insert]
  | cons d m ih =>
    rw [List.pairwise_cons] at hm
    have hd : d.1 ≠ a := ha d List.mem_cons_self
    by_cases hlt : a < d.1
    · simp only [Memory.insert, hlt, if_true, List.pairwise_cons, List.mem_cons]
      refine ⟨?_, hm.1, hm.2⟩
      rintro c (rfl | hc)
      · exact hlt
      · exact hlt.trans (hm.1 c hc)
    · simp only [Memory.insert, hlt, if_false, List.pairwise_cons]
      refine ⟨?_, ih hm.2 fun c hc => ha c (List.mem_cons_of_mem _ hc)⟩
      intro c hc
      rcases Memory.mem_insert.mp hc with rfl | hc
      · exact lt_of_le_of_ne (not_lt.mp hlt) hd
      · exact hm.1 c hc

/-- A write keeps the canonical form. -/
theorem Memory.wf_write {m : Memory} (h : m.wf) (a : Nat) (v : Byte) : (m.write a v).wf := by
  have he : (m.erase a).wf := ⟨h.1.filter _, fun c hc => h.2 c (Memory.mem_erase.mp hc).1⟩
  by_cases hv : v = 0#8
  · simpa [Memory.write, hv] using he
  · simp only [Memory.write, hv, if_false]
    refine ⟨Memory.pairwise_insert he.1 fun c hc => (Memory.mem_erase.mp hc).2, ?_⟩
    intro c hc
    rcases Memory.mem_insert.mp hc with rfl | hc
    · exact hv
    · exact he.2 c hc

/-- A write of a storage byte lists only storage offsets. -/
theorem Memory.inStorage_write {m : Memory} (h : m.inStorage) {a : Nat} (ha : isStorage a = true) (v : Byte) :
    (m.write a v).inStorage := by
  intro c hc
  by_cases hv : v = 0#8
  · simp only [Memory.write, hv, if_true] at hc
    exact h c (Memory.mem_erase.mp hc).1
  · simp only [Memory.write, hv, if_false] at hc
    rcases Memory.mem_insert.mp hc with rfl | hc
    · exact ha
    · exact h c (Memory.mem_erase.mp hc).1

@[simp] theorem Memory.writeBytes_nil (m : Memory) (a : Nat) : m.writeBytes a [] = m := by
  cases m <;> rfl

@[simp] theorem Memory.writeBytes_cons (m : Memory) (a : Nat) (v : Byte) (vs : List Byte) :
    m.writeBytes a (v :: vs) = (m.write a v).writeBytes (a + 1) vs := by
  cases m <;> rfl

/-- A run of writes keeps the canonical form. -/
theorem Memory.wf_writeBytes {m : Memory} (h : m.wf) (a : Nat) (vs : List Byte) : (m.writeBytes a vs).wf := by
  induction vs generalizing m a with
  | nil => simpa using h
  | cons v vs ih => simpa using ih (Memory.wf_write h a v) (a + 1)

theorem Memory.inStorage_writeBytes {m : Memory} (h : m.inStorage) (a : Nat) (vs : List Byte)
    (ha : ∀ j < vs.length, isStorage (a + j) = true) : (m.writeBytes a vs).inStorage := by
  induction vs generalizing m a with
  | nil => simpa using h
  | cons v vs ih =>
    rw [Memory.writeBytes_cons]
    refine ih (Memory.inStorage_write h (by simpa using ha 0 (by simp)) v) (a + 1) fun j hj => ?_
    have := ha (j + 1) (by simpa using hj)
    rwa [show a + 1 + j = a + (j + 1) by omega]

/-- A run of writes leaves every byte outside it alone. -/
theorem Memory.read_writeBytes_outside (m : Memory) (a : Nat) (vs : List Byte) {b : Nat}
    (h : b < a ∨ a + vs.length ≤ b) : (m.writeBytes a vs).read b = m.read b := by
  induction vs generalizing m a with
  | nil => simp
  | cons v vs ih =>
    rw [Memory.writeBytes_cons, ih (m.write a v) (a + 1) (by simp at h; omega)]
    exact Memory.read_write_other m v (by simp at h; omega)

/-- A run of writes, read back: byte j of the run. -/
theorem Memory.read_writeBytes (m : Memory) (a : Nat) (vs : List Byte) {j : Nat} (h : j < vs.length) :
    (m.writeBytes a vs).read (a + j) = vs.getD j 0#8 := by
  induction vs generalizing m a j with
  | nil => simp at h
  | cons v vs ih =>
    rw [Memory.writeBytes_cons]
    cases j with
    | zero =>
      rw [Memory.read_writeBytes_outside _ _ _ (by omega)]
      simp
    | succ j =>
      rw [show a + (j + 1) = a + 1 + j by omega, ih (m.write a v) (a + 1) (by simpa using h)]
      simp

@[simp] theorem Block.length_bytes (x : Block) : x.bytes.length = 16 := rfl

@[simp] theorem length_laneBytes (v : Word) : (laneBytes v).length = 4 := rfl

/-- A block written is the block read (43_modes.md R232). -/
@[simp] theorem msgBlock_writeMsgBlock_same (m : Memory) (b : Nat) (x : Block) :
    msgBlock (writeMsgBlock m b x) b = x := by
  have h : ∀ j < 16, (writeMsgBlock m b x).read (msgBase + 16 * b + j) = x.bytes.getD j 0#8 :=
    fun j hj => Memory.read_writeBytes m _ x.bytes (by simpa using hj)
  simp only [msgBlock, readBlock, readColumn, Nat.add_assoc] at h ⊢
  have h0 := h 0 (by decide)
  simp only [Nat.add_zero] at h0
  rw [h0, h 1 (by decide), h 2 (by decide), h 3 (by decide), h 4 (by decide), h (4 + 1) (by decide), h (4 + 2) (by decide),
    h (4 + 3) (by decide), h 8 (by decide), h (8 + 1) (by decide), h (8 + 2) (by decide), h (8 + 3) (by decide),
    h 12 (by decide), h (12 + 1) (by decide), h (12 + 2) (by decide), h (12 + 3) (by decide)]
  rfl

/-- A block write leaves every byte outside its block alone (43_modes.md R232). -/
theorem read_writeMsgBlock_outside (m : Memory) (b : Nat) (x : Block) {a : Nat}
    (h : a < msgBase + 16 * b ∨ msgBase + 16 * b + 16 ≤ a) : (writeMsgBlock m b x).read a = m.read a :=
  Memory.read_writeBytes_outside m _ x.bytes (by simpa using h)

/-- A block is determined by its bytes. -/
theorem msgBlock_congr {m m' : Memory} {b : Nat} (h : ∀ j < 16, msgByte m' (16 * b + j) = msgByte m (16 * b + j)) :
    msgBlock m' b = msgBlock m b := by
  simp only [msgByte, ← Nat.add_assoc] at h
  have h0 := h 0 (by decide)
  simp only [Nat.add_zero] at h0
  simp only [msgBlock, readBlock, readColumn, Nat.add_assoc] at h h0 ⊢
  rw [h0, h 1 (by decide), h 2 (by decide), h 3 (by decide), h 4 (by decide), h (4 + 1) (by decide), h (4 + 2) (by decide),
    h (4 + 3) (by decide), h 8 (by decide), h (8 + 1) (by decide), h (8 + 2) (by decide), h (8 + 3) (by decide),
    h 12 (by decide), h (12 + 1) (by decide), h (12 + 2) (by decide), h (12 + 3) (by decide)]

/-- A block write leaves every other block alone (43_modes.md R232). -/
theorem msgBlock_writeMsgBlock_other (m : Memory) {b c : Nat} (x : Block) (h : c ≠ b) :
    msgBlock (writeMsgBlock m b x) c = msgBlock m c :=
  msgBlock_congr fun j hj => read_writeMsgBlock_outside m b x (by omega)

theorem Memory.wf_writeMsgBlock {m : Memory} (h : m.wf) (b : Nat) (x : Block) : (writeMsgBlock m b x).wf :=
  Memory.wf_writeBytes h _ _

end Sys2Proof.Machine
end

