-- ==== Sys2Proof/Laws/State.lean ====
section
/-! SUPPORT. Every named update of the state, field by field: one lemma a field, true by rfl. -/

namespace Sys2Proof.Machine

@[simp] theorem State.clearOutcome_mem (s : State) : s.clearOutcome.mem = s.mem := rfl
@[simp] theorem State.clearOutcome_len (s : State) : s.clearOutcome.len = s.len := rfl
@[simp] theorem State.clearOutcome_irqEn (s : State) : s.clearOutcome.irqEn = s.irqEn := rfl
@[simp] theorem State.clearOutcome_busy (s : State) : s.clearOutcome.busy = s.busy := rfl
@[simp] theorem State.clearOutcome_done (s : State) : s.clearOutcome.done = false := rfl
@[simp] theorem State.clearOutcome_err (s : State) : s.clearOutcome.err = false := rfl
@[simp] theorem State.clearOutcome_cause (s : State) : s.clearOutcome.cause = .none := rfl
@[simp] theorem State.clearOutcome_keyw (s : State) : s.clearOutcome.keyw = s.keyw := rfl
@[simp] theorem State.clearOutcome_ivw (s : State) : s.clearOutcome.ivw = s.ivw := rfl
@[simp] theorem State.clearOutcome_st (s : State) : s.clearOutcome.st = s.st := rfl
@[simp] theorem State.clearOutcome_w (s : State) : s.clearOutcome.w = s.w := rfl
@[simp] theorem State.clearOutcome_chain (s : State) : s.clearOutcome.chain = s.chain := rfl
@[simp] theorem State.clearOutcome_seq (s : State) : s.clearOutcome.seq = s.seq := rfl
@[simp] theorem State.clearOutcome_op (s : State) : s.clearOutcome.op = s.op := rfl
@[simp] theorem State.clearOutcome_strength (s : State) : s.clearOutcome.strength = s.strength := rfl
@[simp] theorem State.clearOutcome_nblk (s : State) : s.clearOutcome.nblk = s.nblk := rfl
@[simp] theorem State.clearOutcome_latchedLen (s : State) : s.clearOutcome.latchedLen = s.latchedLen := rfl
@[simp] theorem State.clearOutcome_inputs (s : State) : s.clearOutcome.inputs = s.inputs := rfl
@[simp] theorem State.clearOutcome_quiet (s : State) : s.clearOutcome.quiet = s.quiet := rfl
@[simp] theorem State.clearOutcome_resp (s : State) : s.clearOutcome.resp = s.resp := rfl
@[simp] theorem State.clearOutcome_freeCount (s : State) : s.clearOutcome.freeCount = s.freeCount := rfl

@[simp] theorem State.reject_mem (c : Cause) (s : State) : (s.reject c).mem = s.mem := rfl
@[simp] theorem State.reject_len (c : Cause) (s : State) : (s.reject c).len = s.len := rfl
@[simp] theorem State.reject_irqEn (c : Cause) (s : State) : (s.reject c).irqEn = s.irqEn := rfl
@[simp] theorem State.reject_busy (c : Cause) (s : State) : (s.reject c).busy = s.busy := rfl
@[simp] theorem State.reject_done (c : Cause) (s : State) : (s.reject c).done = true := rfl
@[simp] theorem State.reject_err (c : Cause) (s : State) : (s.reject c).err = true := rfl
@[simp] theorem State.reject_cause (c : Cause) (s : State) : (s.reject c).cause = c := rfl
@[simp] theorem State.reject_keyw (c : Cause) (s : State) : (s.reject c).keyw = s.keyw := rfl
@[simp] theorem State.reject_ivw (c : Cause) (s : State) : (s.reject c).ivw = s.ivw := rfl
@[simp] theorem State.reject_st (c : Cause) (s : State) : (s.reject c).st = s.st := rfl
@[simp] theorem State.reject_w (c : Cause) (s : State) : (s.reject c).w = s.w := rfl
@[simp] theorem State.reject_chain (c : Cause) (s : State) : (s.reject c).chain = s.chain := rfl
@[simp] theorem State.reject_seq (c : Cause) (s : State) : (s.reject c).seq = s.seq := rfl
@[simp] theorem State.reject_op (c : Cause) (s : State) : (s.reject c).op = s.op := rfl
@[simp] theorem State.reject_strength (c : Cause) (s : State) : (s.reject c).strength = s.strength := rfl
@[simp] theorem State.reject_nblk (c : Cause) (s : State) : (s.reject c).nblk = s.nblk := rfl
@[simp] theorem State.reject_latchedLen (c : Cause) (s : State) : (s.reject c).latchedLen = s.latchedLen := rfl
@[simp] theorem State.reject_inputs (c : Cause) (s : State) : (s.reject c).inputs = s.inputs := rfl
@[simp] theorem State.reject_quiet (c : Cause) (s : State) : (s.reject c).quiet = s.quiet := rfl
@[simp] theorem State.reject_resp (c : Cause) (s : State) : (s.reject c).resp = s.resp := rfl
@[simp] theorem State.reject_freeCount (c : Cause) (s : State) : (s.reject c).freeCount = s.freeCount := rfl

@[simp] theorem State.complete_mem (s : State) : s.complete.mem = s.mem := rfl
@[simp] theorem State.complete_len (s : State) : s.complete.len = s.len := rfl
@[simp] theorem State.complete_irqEn (s : State) : s.complete.irqEn = s.irqEn := rfl
@[simp] theorem State.complete_busy (s : State) : s.complete.busy = false := rfl
@[simp] theorem State.complete_done (s : State) : s.complete.done = true := rfl
@[simp] theorem State.complete_err (s : State) : s.complete.err = false := rfl
@[simp] theorem State.complete_cause (s : State) : s.complete.cause = .none := rfl
@[simp] theorem State.complete_keyw (s : State) : s.complete.keyw = s.keyw := rfl
@[simp] theorem State.complete_ivw (s : State) : s.complete.ivw = s.ivw := rfl
@[simp] theorem State.complete_st (s : State) : s.complete.st = s.st := rfl
@[simp] theorem State.complete_w (s : State) : s.complete.w = s.w := rfl
@[simp] theorem State.complete_chain (s : State) : s.complete.chain = s.chain := rfl
@[simp] theorem State.complete_seq (s : State) : s.complete.seq = .idle := rfl
@[simp] theorem State.complete_op (s : State) : s.complete.op = s.op := rfl
@[simp] theorem State.complete_strength (s : State) : s.complete.strength = s.strength := rfl
@[simp] theorem State.complete_nblk (s : State) : s.complete.nblk = s.nblk := rfl
@[simp] theorem State.complete_latchedLen (s : State) : s.complete.latchedLen = s.latchedLen := rfl
@[simp] theorem State.complete_inputs (s : State) : s.complete.inputs = s.inputs := rfl
@[simp] theorem State.complete_quiet (s : State) : s.complete.quiet = s.quiet := rfl
@[simp] theorem State.complete_resp (s : State) : s.complete.resp = s.resp := rfl
@[simp] theorem State.complete_freeCount (s : State) : s.complete.freeCount = s.freeCount := rfl

@[simp] theorem State.goto_mem (p : Phase) (s : State) : (s.goto p).mem = s.mem := rfl
@[simp] theorem State.goto_len (p : Phase) (s : State) : (s.goto p).len = s.len := rfl
@[simp] theorem State.goto_irqEn (p : Phase) (s : State) : (s.goto p).irqEn = s.irqEn := rfl
@[simp] theorem State.goto_busy (p : Phase) (s : State) : (s.goto p).busy = s.busy := rfl
@[simp] theorem State.goto_done (p : Phase) (s : State) : (s.goto p).done = s.done := rfl
@[simp] theorem State.goto_err (p : Phase) (s : State) : (s.goto p).err = s.err := rfl
@[simp] theorem State.goto_cause (p : Phase) (s : State) : (s.goto p).cause = s.cause := rfl
@[simp] theorem State.goto_keyw (p : Phase) (s : State) : (s.goto p).keyw = s.keyw := rfl
@[simp] theorem State.goto_ivw (p : Phase) (s : State) : (s.goto p).ivw = s.ivw := rfl
@[simp] theorem State.goto_st (p : Phase) (s : State) : (s.goto p).st = s.st := rfl
@[simp] theorem State.goto_w (p : Phase) (s : State) : (s.goto p).w = s.w := rfl
@[simp] theorem State.goto_chain (p : Phase) (s : State) : (s.goto p).chain = s.chain := rfl
@[simp] theorem State.goto_seq (p : Phase) (s : State) : (s.goto p).seq = p := rfl
@[simp] theorem State.goto_op (p : Phase) (s : State) : (s.goto p).op = s.op := rfl
@[simp] theorem State.goto_strength (p : Phase) (s : State) : (s.goto p).strength = s.strength := rfl
@[simp] theorem State.goto_nblk (p : Phase) (s : State) : (s.goto p).nblk = s.nblk := rfl
@[simp] theorem State.goto_latchedLen (p : Phase) (s : State) : (s.goto p).latchedLen = s.latchedLen := rfl
@[simp] theorem State.goto_inputs (p : Phase) (s : State) : (s.goto p).inputs = s.inputs := rfl
@[simp] theorem State.goto_quiet (p : Phase) (s : State) : (s.goto p).quiet = s.quiet := rfl
@[simp] theorem State.goto_resp (p : Phase) (s : State) : (s.goto p).resp = s.resp := rfl
@[simp] theorem State.goto_freeCount (p : Phase) (s : State) : (s.goto p).freeCount = s.freeCount := rfl

@[simp] theorem storeBlock_mem (b : Nat) (s : State) : (storeBlock b s).mem = writeMsgBlock s.mem b s.st := rfl
@[simp] theorem storeBlock_len (b : Nat) (s : State) : (storeBlock b s).len = s.len := rfl
@[simp] theorem storeBlock_irqEn (b : Nat) (s : State) : (storeBlock b s).irqEn = s.irqEn := rfl
@[simp] theorem storeBlock_busy (b : Nat) (s : State) : (storeBlock b s).busy = s.busy := rfl
@[simp] theorem storeBlock_done (b : Nat) (s : State) : (storeBlock b s).done = s.done := rfl
@[simp] theorem storeBlock_err (b : Nat) (s : State) : (storeBlock b s).err = s.err := rfl
@[simp] theorem storeBlock_cause (b : Nat) (s : State) : (storeBlock b s).cause = s.cause := rfl
@[simp] theorem storeBlock_keyw (b : Nat) (s : State) : (storeBlock b s).keyw = s.keyw := rfl
@[simp] theorem storeBlock_ivw (b : Nat) (s : State) : (storeBlock b s).ivw = s.ivw := rfl
@[simp] theorem storeBlock_st (b : Nat) (s : State) : (storeBlock b s).st = s.st := rfl
@[simp] theorem storeBlock_w (b : Nat) (s : State) : (storeBlock b s).w = s.w := rfl
@[simp] theorem storeBlock_chain (b : Nat) (s : State) : (storeBlock b s).chain = s.chain := rfl
@[simp] theorem storeBlock_seq (b : Nat) (s : State) : (storeBlock b s).seq = s.seq := rfl
@[simp] theorem storeBlock_op (b : Nat) (s : State) : (storeBlock b s).op = s.op := rfl
@[simp] theorem storeBlock_strength (b : Nat) (s : State) : (storeBlock b s).strength = s.strength := rfl
@[simp] theorem storeBlock_nblk (b : Nat) (s : State) : (storeBlock b s).nblk = s.nblk := rfl
@[simp] theorem storeBlock_latchedLen (b : Nat) (s : State) : (storeBlock b s).latchedLen = s.latchedLen := rfl
@[simp] theorem storeBlock_inputs (b : Nat) (s : State) : (storeBlock b s).inputs = s.inputs := rfl
@[simp] theorem storeBlock_quiet (b : Nat) (s : State) : (storeBlock b s).quiet = s.quiet := rfl
@[simp] theorem storeBlock_resp (b : Nat) (s : State) : (storeBlock b s).resp = s.resp := rfl
@[simp] theorem storeBlock_freeCount (b : Nat) (s : State) : (storeBlock b s).freeCount = s.freeCount := rfl

@[simp] theorem accept_mem (d : Resolved) (s : State) : (accept d s).mem = s.mem := rfl
@[simp] theorem accept_len (d : Resolved) (s : State) : (accept d s).len = s.len := rfl
@[simp] theorem accept_irqEn (d : Resolved) (s : State) : (accept d s).irqEn = s.irqEn := rfl
@[simp] theorem accept_busy (d : Resolved) (s : State) : (accept d s).busy = true := rfl
@[simp] theorem accept_done (d : Resolved) (s : State) : (accept d s).done = s.done := rfl
@[simp] theorem accept_err (d : Resolved) (s : State) : (accept d s).err = s.err := rfl
@[simp] theorem accept_cause (d : Resolved) (s : State) : (accept d s).cause = s.cause := rfl
@[simp] theorem accept_keyw (d : Resolved) (s : State) : (accept d s).keyw = s.keyw := rfl
@[simp] theorem accept_ivw (d : Resolved) (s : State) : (accept d s).ivw = s.ivw := rfl
@[simp] theorem accept_st (d : Resolved) (s : State) : (accept d s).st = s.st := rfl
@[simp] theorem accept_w (d : Resolved) (s : State) : (accept d s).w = copyWords (keyWord s.mem) d.strength.nk s.w := rfl
@[simp] theorem accept_chain (d : Resolved) (s : State) : (accept d s).chain = s.chain := rfl
@[simp] theorem accept_seq (d : Resolved) (s : State) : (accept d s).seq = .expand d.strength.nk := rfl
@[simp] theorem accept_op (d : Resolved) (s : State) : (accept d s).op = d.op := rfl
@[simp] theorem accept_strength (d : Resolved) (s : State) : (accept d s).strength = d.strength := rfl
@[simp] theorem accept_nblk (d : Resolved) (s : State) : (accept d s).nblk = blockCount s.len := rfl
@[simp] theorem accept_latchedLen (d : Resolved) (s : State) : (accept d s).latchedLen = s.len := rfl
@[simp] theorem accept_inputs (d : Resolved) (s : State) : (accept d s).inputs = s.inputs := rfl
@[simp] theorem accept_quiet (d : Resolved) (s : State) : (accept d s).quiet = s.quiet := rfl
@[simp] theorem accept_resp (d : Resolved) (s : State) : (accept d s).resp = s.resp := rfl
@[simp] theorem accept_freeCount (d : Resolved) (s : State) : (accept d s).freeCount = s.freeCount := rfl

@[simp] theorem State.take_mem (s : State) (rest : List Input) (q : Option Nat) : (s.take rest q).mem = s.mem := rfl
@[simp] theorem State.take_len (s : State) (rest : List Input) (q : Option Nat) : (s.take rest q).len = s.len := rfl
@[simp] theorem State.take_irqEn (s : State) (rest : List Input) (q : Option Nat) : (s.take rest q).irqEn = s.irqEn := rfl
@[simp] theorem State.take_busy (s : State) (rest : List Input) (q : Option Nat) : (s.take rest q).busy = s.busy := rfl
@[simp] theorem State.take_done (s : State) (rest : List Input) (q : Option Nat) : (s.take rest q).done = s.done := rfl
@[simp] theorem State.take_err (s : State) (rest : List Input) (q : Option Nat) : (s.take rest q).err = s.err := rfl
@[simp] theorem State.take_cause (s : State) (rest : List Input) (q : Option Nat) : (s.take rest q).cause = s.cause := rfl
@[simp] theorem State.take_keyw (s : State) (rest : List Input) (q : Option Nat) : (s.take rest q).keyw = s.keyw := rfl
@[simp] theorem State.take_ivw (s : State) (rest : List Input) (q : Option Nat) : (s.take rest q).ivw = s.ivw := rfl
@[simp] theorem State.take_st (s : State) (rest : List Input) (q : Option Nat) : (s.take rest q).st = s.st := rfl
@[simp] theorem State.take_w (s : State) (rest : List Input) (q : Option Nat) : (s.take rest q).w = s.w := rfl
@[simp] theorem State.take_chain (s : State) (rest : List Input) (q : Option Nat) : (s.take rest q).chain = s.chain := rfl
@[simp] theorem State.take_seq (s : State) (rest : List Input) (q : Option Nat) : (s.take rest q).seq = s.seq := rfl
@[simp] theorem State.take_op (s : State) (rest : List Input) (q : Option Nat) : (s.take rest q).op = s.op := rfl
@[simp] theorem State.take_strength (s : State) (rest : List Input) (q : Option Nat) : (s.take rest q).strength = s.strength := rfl
@[simp] theorem State.take_nblk (s : State) (rest : List Input) (q : Option Nat) : (s.take rest q).nblk = s.nblk := rfl
@[simp] theorem State.take_latchedLen (s : State) (rest : List Input) (q : Option Nat) : (s.take rest q).latchedLen = s.latchedLen := rfl
@[simp] theorem State.take_inputs (s : State) (rest : List Input) (q : Option Nat) : (s.take rest q).inputs = rest := rfl
@[simp] theorem State.take_quiet (s : State) (rest : List Input) (q : Option Nat) : (s.take rest q).quiet = q := rfl
@[simp] theorem State.take_resp (s : State) (rest : List Input) (q : Option Nat) : (s.take rest q).resp = s.resp := rfl
@[simp] theorem State.take_freeCount (s : State) (rest : List Input) (q : Option Nat) : (s.take rest q).freeCount = s.freeCount := rfl

end Sys2Proof.Machine
end

