-- ==== Sys2Proof/Laws/Engine.lean ====
section
/-! SUPPORT. What one phase of the engine can do, said once: the registers no phase touches, the latched fields, IDLE, and
how phases add up. -/

namespace Sys2Proof.Machine

/-- The fields no phase of the engine changes: LEN, CTRL, LOADED, the latched fields, and the host's side. -/
structure EngineKeeps (s t : State) : Prop where
  len : t.len = s.len
  irqEn : t.irqEn = s.irqEn
  keyw : t.keyw = s.keyw
  ivw : t.ivw = s.ivw
  op : t.op = s.op
  strength : t.strength = s.strength
  nblk : t.nblk = s.nblk
  latchedLen : t.latchedLen = s.latchedLen
  inputs : t.inputs = s.inputs
  quiet : t.quiet = s.quiet
  resp : t.resp = s.resp
  freeCount : t.freeCount = s.freeCount

theorem EngineKeeps.refl (s : State) : EngineKeeps s s := by constructor <;> rfl

theorem EngineKeeps.trans {s t u : State} (h : EngineKeeps s t) (h' : EngineKeeps t u) : EngineKeeps s u := by
  constructor
  · exact h'.len.trans h.len
  · exact h'.irqEn.trans h.irqEn
  · exact h'.keyw.trans h.keyw
  · exact h'.ivw.trans h.ivw
  · exact h'.op.trans h.op
  · exact h'.strength.trans h.strength
  · exact h'.nblk.trans h.nblk
  · exact h'.latchedLen.trans h.latchedLen
  · exact h'.inputs.trans h.inputs
  · exact h'.quiet.trans h.quiet
  · exact h'.resp.trans h.resp
  · exact h'.freeCount.trans h.freeCount

theorem engineKeeps_loadBlock (b : Nat) (s : State) : EngineKeeps s (loadBlock b s) := by
  unfold loadBlock
  split <;> constructor <;> rfl

theorem engineKeeps_sealBlock (s : State) : EngineKeeps s (sealBlock s) := by
  unfold sealBlock
  split <;> constructor <;> rfl

theorem engineKeeps_storeBlock (b : Nat) (s : State) : EngineKeeps s (storeBlock b s) := by
  constructor <;> rfl

theorem engineKeeps_goto (p : Phase) (s : State) : EngineKeeps s (s.goto p) := by
  constructor <;> rfl

theorem engineKeeps_complete (s : State) : EngineKeeps s s.complete := by
  constructor <;> rfl

theorem engineKeeps_storeWord (i : Nat) (s : State) : EngineKeeps s (storeWord i s) := by
  constructor <;> rfl

theorem engineKeeps_stageStep (k : Nat) (s : State) : EngineKeeps s (stageStep k s) := by
  constructor <;> rfl

theorem engineKeeps_enterBlock (b k : Nat) (s : State) : EngineKeeps s (enterBlock b k s) := by
  unfold enterBlock
  split
  · exact engineKeeps_loadBlock b s
  · exact .refl s

theorem engineKeeps_expandPhase (i : Nat) (s : State) : EngineKeeps s (expandPhase i s) := by
  unfold expandPhase
  split <;> exact (engineKeeps_storeWord i s).trans (engineKeeps_goto _ _)

theorem engineKeeps_endBlock (b : Nat) (s : State) : EngineKeeps s (endBlock b s) := by
  unfold endBlock
  split
  · exact (engineKeeps_sealBlock s).trans (engineKeeps_goto _ _)
  · exact ((engineKeeps_sealBlock s).trans (engineKeeps_storeBlock _ _)).trans (engineKeeps_goto _ _)

theorem engineKeeps_blockPhase (b k : Nat) (s : State) : EngineKeeps s (blockPhase b k s) := by
  have h := (engineKeeps_enterBlock b k s).trans (engineKeeps_stageStep k _)
  unfold blockPhase
  split
  · exact h.trans (engineKeeps_endBlock _ _)
  · exact h.trans (engineKeeps_goto _ _)

/-- No phase changes a kept field. -/
theorem engineKeeps_phaseStep (s : State) : EngineKeeps s (phaseStep s) := by
  unfold phaseStep
  split
  · exact .refl s
  · exact engineKeeps_expandPhase _ s
  · exact engineKeeps_blockPhase _ _ s
  · exact (engineKeeps_storeBlock _ s).trans (engineKeeps_complete _)

theorem engineKeeps_runPhases (n : Nat) (s : State) : EngineKeeps s (runPhases n s) := by
  induction n generalizing s with
  | zero => exact .refl s
  | succ n ih => exact (engineKeeps_phaseStep s).trans (ih _)

theorem engineKeeps_advanceBy (gap : Option Nat) (s : State) : EngineKeeps s (advanceBy gap s) := by
  cases gap <;> exact engineKeeps_runPhases _ s

theorem phaseStep_idle {s : State} (h : s.seq = .idle) : phaseStep s = s := by
  simp [phaseStep, h]

theorem phaseStep_expand {s : State} {i : Nat} (h : s.seq = .expand i) : phaseStep s = expandPhase i s := by
  simp [phaseStep, h]

theorem phaseStep_block {s : State} {b k : Nat} (h : s.seq = .block b k) : phaseStep s = blockPhase b k s := by
  simp [phaseStep, h]

theorem phaseStep_finish {s : State} (h : s.seq = .finish) : phaseStep s = finishPhase s := by
  simp [phaseStep, h]

@[simp] theorem runPhases_zero (s : State) : runPhases 0 s = s := rfl

theorem runPhases_succ (n : Nat) (s : State) : runPhases (n + 1) s = runPhases n (phaseStep s) := rfl

/-- Phases add up. -/
theorem runPhases_add (m n : Nat) (s : State) : runPhases (m + n) s = runPhases n (runPhases m s) := by
  induction m generalizing s with
  | zero => simp
  | succ m ih => rw [Nat.succ_add, runPhases_succ, ih, runPhases_succ]

/-- An IDLE engine does nothing (70_reset_and_hazards.md R313). -/
theorem runPhases_idle {s : State} (h : s.seq = .idle) (n : Nat) : runPhases n s = s := by
  induction n with
  | zero => rfl
  | succ n ih => rw [runPhases_succ, phaseStep_idle h, ih]

theorem advanceBy_idle {s : State} (h : s.seq = .idle) (gap : Option Nat) : advanceBy gap s = s := by
  cases gap <;> exact runPhases_idle h _

theorem advance_idle {s : State} (h : s.seq = .idle) : advance s = s := advanceBy_idle h _

@[simp] theorem advanceBy_some (n : Nat) (s : State) : advanceBy (some n) s = runPhases n s := rfl

@[simp] theorem advanceBy_none (s : State) : advanceBy none s = runPhases Config.maxPhases s := rfl

end Sys2Proof.Machine
end

