-- ==== Sys2Proof/Laws/Command.lean ====
section
/-! SUPPORT. What a command can do, said once: every meaning is `command` of the command's resolution, and `command`
goes on with the running command, rejects, or accepts. -/

namespace Sys2Proof.Machine

/-- Every command's meaning is the shared procedure at its own resolution. -/
theorem exec_eq_command (i : Instr) (s : State) : exec i s = .next (command i.resolve s) := by
  cases i <;> rfl

/-- A command written while another runs is ignored. -/
theorem command_busy {s : State} (h : s.busy = true) (r : Resolution) : command r s = advance s := by
  simp [command, h]

theorem command_reject {s : State} (h : s.busy = false) (c : Cause) :
    command (.reject c) s = s.clearOutcome.reject c := by
  simp [command, h]

theorem command_accept {s : State} {d : Resolved} (h : s.busy = false) (hv : validate d s.clearOutcome = .none) :
    command (.command d) s = advance (accept d s.clearOutcome) := by
  simp [command, h, hv]

theorem command_invalid {s : State} {d : Resolved} {c : Cause} (h : s.busy = false)
    (hv : validate d s.clearOutcome = c) (hc : c ≠ .none) : command (.command d) s = s.clearOutcome.reject c := by
  subst hv
  cases hv : validate d s.clearOutcome <;> simp_all [command]

/-- The cases of a command: one runs already, it is rejected by name, or it is accepted. -/
theorem command_cases (r : Resolution) (s : State) :
    (s.busy = true ∧ command r s = advance s)
      ∨ (s.busy = false ∧ ∃ c, command r s = s.clearOutcome.reject c)
      ∨ (s.busy = false ∧ ∃ d, r = .command d ∧ validate d s.clearOutcome = .none
          ∧ command r s = advance (accept d s.clearOutcome)) := by
  cases hb : s.busy with
  | true => exact .inl ⟨rfl, command_busy hb r⟩
  | false =>
    refine .inr ?_
    cases r with
    | reject c => exact .inl ⟨rfl, c, command_reject hb c⟩
    | command d =>
      by_cases hv : validate d s.clearOutcome = .none
      · exact .inr ⟨rfl, d, rfl, hv, command_accept hb hv⟩
      · exact .inl ⟨rfl, _, command_invalid hb rfl hv⟩

/-- All key words of a strength are loaded exactly when each of their bits is set. -/
theorem keyLoaded_iff (keyw : BitVec 8) (k : Strength) :
    keyLoaded keyw k = true ↔ ∀ i < k.nk, keyw.getLsbD i = true := by
  simp [keyLoaded]

theorem ivLoaded_iff (ivw : BitVec 4) : ivLoaded ivw = true ↔ ivw = 0xF#4 := by
  simp [ivLoaded]

end Sys2Proof.Machine
end

