-- ==== Sys2Proof/Laws/HostBus.lean ====
section
/-! SUPPORT. The offset map, said once in each direction (20_memory.md R71). -/

namespace Sys2Proof.Machine

theorem regAt_keyOffset : ∀ k < 8, regAt (BitVec.ofNat 12 (keyOffset k)) = .key k := by decide

theorem regAt_ivOffset : ∀ k < 4, regAt (BitVec.ofNat 12 (ivOffset k)) = .iv k := by decide

theorem regAt_msgOffset : ∀ k < 16, regAt (BitVec.ofNat 12 (msgOffset k)) = .msg k := by decide

/-- A KEY register is one of eight. -/
theorem regAt_key {off : Offset} {k : Nat} (h : regAt off = .key k) : k < 8 := by
  unfold regAt offsetMap at h
  repeat' split at h
  all_goals first | contradiction | skip
  simp only [keyBase, Reg.key.injEq] at *
  omega

/-- An IV register is one of four. -/
theorem regAt_iv {off : Offset} {k : Nat} (h : regAt off = .iv k) : k < 4 := by
  unfold regAt offsetMap at h
  repeat' split at h
  all_goals first | contradiction | skip
  simp only [ivBase, Reg.iv.injEq] at *
  omega

/-- An MSG register is one of sixteen. -/
theorem regAt_msg {off : Offset} {k : Nat} (h : regAt off = .msg k) : k < 16 := by
  unfold regAt offsetMap at h
  repeat' split at h
  all_goals first | contradiction | skip
  simp only [msgBase, Config.maxLen, Config.nblkMax, Reg.msg.injEq] at *
  omega

/-- Four bytes written as a register value read back as that value (20_memory.md R74). -/
theorem laneWord_writeBytes (m : Memory) (a : Nat) (v : Word) : laneWord (m.writeBytes a (laneBytes v)) a = v := by
  have h : ∀ j < 4, (m.writeBytes a (laneBytes v)).read (a + j) = (laneBytes v).getD j 0#8 :=
    fun j hj => Memory.read_writeBytes m a (laneBytes v) (by simpa using hj)
  have h0 := h 0 (by decide)
  simp only [Nat.add_zero] at h0
  simp only [laneWord, h0, h 1 (by decide), h 2 (by decide), h 3 (by decide)]
  apply BitVec.eq_of_getLsbD_eq
  intro i hi
  simp only [laneBytes, List.getD_cons_zero, List.getD_cons_succ, BitVec.getLsbD_append, BitVec.getLsbD_extractLsb']
  have hi' : i < 32 := hi
  split_ifs with h1 h2 h3
  · simp [h1]
  · simp [h2, show 8 + (i - 8) = i by omega]
  · simp [h3, show 16 + (i - 8 - 8) = i by omega]
  · simp [show i - 8 - 8 - 8 < 8 by omega, show 24 + (i - 8 - 8 - 8) = i by omega]

end Sys2Proof.Machine
end

