-- ==== Sys2Proof/Laws/PerInstr.lean ====
section
/-! SUPPORT. Per-command laws: the family Encoding says what each field of an encoded command's word is
(30_encoding.md R100). -/

/-- The fields of the encoded word: OP, KSIZE and RSV (30_encoding.md R100, R101). -/
def Sys2Proof.Laws.Encoding.Statement (i : Sys2Proof.Instr) : Prop :=
  Sys2Proof.opField (Sys2Proof.encode i) = i.op.code ∧ Sys2Proof.ksizeField (Sys2Proof.encode i) = i.ksize
    ∧ Sys2Proof.rsvField (Sys2Proof.encode i) = 0#26

theorem Sys2Proof.Laws.Encoding.ecbEnc (ksize : BitVec 2) :
    Sys2Proof.Laws.Encoding.Statement (Sys2Proof.Instr.ecbEnc ksize) := by
  unfold Sys2Proof.Laws.Encoding.Statement
  revert ksize
  decide

theorem Sys2Proof.Laws.Encoding.ecbDec (ksize : BitVec 2) :
    Sys2Proof.Laws.Encoding.Statement (Sys2Proof.Instr.ecbDec ksize) := by
  unfold Sys2Proof.Laws.Encoding.Statement
  revert ksize
  decide

theorem Sys2Proof.Laws.Encoding.cbcEnc (ksize : BitVec 2) :
    Sys2Proof.Laws.Encoding.Statement (Sys2Proof.Instr.cbcEnc ksize) := by
  unfold Sys2Proof.Laws.Encoding.Statement
  revert ksize
  decide

theorem Sys2Proof.Laws.Encoding.cbcDec (ksize : BitVec 2) :
    Sys2Proof.Laws.Encoding.Statement (Sys2Proof.Instr.cbcDec ksize) := by
  unfold Sys2Proof.Laws.Encoding.Statement
  revert ksize
  decide

theorem Sys2Proof.Laws.Encoding.blkEnc128 (ksize : BitVec 2) :
    Sys2Proof.Laws.Encoding.Statement (Sys2Proof.Instr.blkEnc128 ksize) := by
  unfold Sys2Proof.Laws.Encoding.Statement
  revert ksize
  decide

theorem Sys2Proof.Laws.Encoding.blkEnc192 (ksize : BitVec 2) :
    Sys2Proof.Laws.Encoding.Statement (Sys2Proof.Instr.blkEnc192 ksize) := by
  unfold Sys2Proof.Laws.Encoding.Statement
  revert ksize
  decide

theorem Sys2Proof.Laws.Encoding.blkEnc256 (ksize : BitVec 2) :
    Sys2Proof.Laws.Encoding.Statement (Sys2Proof.Instr.blkEnc256 ksize) := by
  unfold Sys2Proof.Laws.Encoding.Statement
  revert ksize
  decide

theorem Sys2Proof.Laws.Encoding.blkDec128 (ksize : BitVec 2) :
    Sys2Proof.Laws.Encoding.Statement (Sys2Proof.Instr.blkDec128 ksize) := by
  unfold Sys2Proof.Laws.Encoding.Statement
  revert ksize
  decide

theorem Sys2Proof.Laws.Encoding.blkDec192 (ksize : BitVec 2) :
    Sys2Proof.Laws.Encoding.Statement (Sys2Proof.Instr.blkDec192 ksize) := by
  unfold Sys2Proof.Laws.Encoding.Statement
  revert ksize
  decide

theorem Sys2Proof.Laws.Encoding.blkDec256 (ksize : BitVec 2) :
    Sys2Proof.Laws.Encoding.Statement (Sys2Proof.Instr.blkDec256 ksize) := by
  unfold Sys2Proof.Laws.Encoding.Statement
  revert ksize
  decide
end

