-- ==== Sys2Proof/Laws/Pipeline.lean ====
section
/-! SUPPORT. What the engine's phases of one block and of the key expansion add up to. -/

namespace Sys2Proof.Machine

/-! ### One block -/

theorem loadBlock_eq (b : Nat) (s : State) :
    loadBlock b s = { s with st := (loadBlock b s).st, chain := (loadBlock b s).chain } := by
  unfold loadBlock
  split <;> rfl

theorem sealBlock_eq (s : State) : sealBlock s = { s with st := (sealBlock s).st, chain := (sealBlock s).chain } := by
  unfold sealBlock
  split <;> rfl

theorem Strength.nr_pos (k : Strength) : 0 < k.nr := by cases k <;> decide

/-- A block's stages 0 .. n of the forward machine, n < Nr (42_block_cipher.md R200). -/
theorem runPhases_forward {s : State} {b : Nat} (hd : s.op.dir = .enc) (hs : s.seq = .block b 0) :
    ∀ n < s.strength.nr, runPhases (n + 1) s
      = { loadBlock b s with
          st := fullRounds s.w n (addRoundKey s.w 0 (loadBlock b s).st), seq := .block b (n + 1) } := by
  intro n
  induction n with
  | zero =>
    intro hn
    have h0 : (0 : Nat) ≠ s.strength.nr := by omega
    rw [runPhases_succ, runPhases_zero, phaseStep_block hs]
    rw [blockPhase, if_neg (by simpa [lastStage, hd] using h0), enterBlock, if_pos (by simp [firstStage, hd]),
      loadBlock_eq]
    simp [stageStep, State.goto, runStage, forwardStage, fullRounds, nextStage, hd]
  | succ n ih =>
    intro hn
    have h1 : n + 1 ≠ s.strength.nr := by omega
    rw [runPhases_add (n + 1) 1, ih (by omega), runPhases_succ, runPhases_zero, phaseStep_block rfl, loadBlock_eq]
    rw [blockPhase, if_neg (by simpa [lastStage, hd] using h1), enterBlock, if_neg (by simp [firstStage, hd])]
    simp [stageStep, State.goto, runStage, forwardStage, fullRounds, nextStage, hd, hn]

/-- A block's Nr + 1 forward stages: Cipher of what was loaded, then the block's end (42_block_cipher.md R200, R201). -/
theorem runPhases_cipher {s : State} {b : Nat} (hd : s.op.dir = .enc) (hs : s.seq = .block b 0) :
    runPhases (s.strength.nr + 1) s
      = endBlock b { loadBlock b s with
          st := cipher s.w s.strength.nr (loadBlock b s).st, seq := .block b s.strength.nr } := by
  have hp := Strength.nr_pos s.strength
  obtain ⟨n, hn⟩ : ∃ n, s.strength.nr = n + 1 := ⟨s.strength.nr - 1, by omega⟩
  rw [runPhases_add s.strength.nr 1, runPhases_succ, runPhases_zero]
  rw [show runPhases s.strength.nr s = runPhases (n + 1) s by rw [hn], runPhases_forward hd hs n (by omega),
    phaseStep_block rfl, loadBlock_eq]
  rw [blockPhase, if_pos (by simp [lastStage, hd, hn]), enterBlock, if_neg (by simp [firstStage, hd])]
  simp [stageStep, runStage, forwardStage, cipher, hd, hn]

/-- A block's stages Nr .. Nr - n of the inverse machine, n < Nr (42_block_cipher.md R203). -/
theorem runPhases_inverse {s : State} {b : Nat} (hd : s.op.dir = .dec) (hs : s.seq = .block b s.strength.nr) :
    ∀ n < s.strength.nr, ∃ x, runPhases (n + 1) s = { loadBlock b s with st := x, seq := .block b (s.strength.nr - 1 - n) }
      ∧ invRounds s.w (s.strength.nr - 1 - n) x
        = invRounds s.w (s.strength.nr - 1) (addRoundKey s.w s.strength.nr (loadBlock b s).st) := by
  intro n
  induction n with
  | zero =>
    intro hn
    refine ⟨_, ?_, rfl⟩
    rw [runPhases_succ, runPhases_zero, phaseStep_block hs]
    rw [blockPhase, if_neg (by simp only [lastStage, hd]; omega), enterBlock, if_pos (by simp [firstStage, hd]),
      loadBlock_eq]
    simp [stageStep, State.goto, runStage, inverseStage, nextStage, hd]
  | succ n ih =>
    intro hn
    obtain ⟨x, hx, hr⟩ := ih (by omega)
    obtain ⟨r, hr1⟩ : ∃ r, s.strength.nr - 1 - n = r + 1 := ⟨s.strength.nr - 1 - n - 1, by omega⟩
    rw [hr1] at hx hr
    refine ⟨invRound s.w (r + 1) x, ?_, ?_⟩
    · rw [runPhases_add (n + 1) 1, hx, runPhases_succ, runPhases_zero, phaseStep_block rfl, loadBlock_eq]
      have h1 : r + 1 ≠ s.strength.nr := by omega
      rw [blockPhase, if_neg (by simp [lastStage, hd]), enterBlock, if_neg (by simp [firstStage, hd, h1])]
      simp [stageStep, State.goto, runStage, inverseStage, nextStage, hd, h1]
      omega
    · rw [show s.strength.nr - 1 - (n + 1) = r by omega, ← hr]
      rfl

/-- A block's Nr + 1 inverse stages: InvCipher of what was loaded, then the block's end (42_block_cipher.md R203). -/
theorem runPhases_invCipher {s : State} {b : Nat} (hd : s.op.dir = .dec) (hs : s.seq = .block b s.strength.nr) :
    runPhases (s.strength.nr + 1) s
      = endBlock b { loadBlock b s with
          st := invCipher s.w s.strength.nr (loadBlock b s).st, seq := .block b 0 } := by
  have hp := Strength.nr_pos s.strength
  obtain ⟨n, hn⟩ : ∃ n, s.strength.nr = n + 1 := ⟨s.strength.nr - 1, by omega⟩
  obtain ⟨x, hx, hr⟩ := runPhases_inverse hd hs n (by omega)
  rw [show s.strength.nr - 1 - n = 0 by omega] at hx hr
  rw [runPhases_add s.strength.nr 1, runPhases_succ, runPhases_zero]
  rw [show runPhases s.strength.nr s = runPhases (n + 1) s by rw [hn], hx, phaseStep_block rfl, loadBlock_eq]
  rw [blockPhase, if_pos (by simp [lastStage, hd]), enterBlock, if_neg (by simp [firstStage, hd, hn])]
  simp only [invRounds] at hr
  simp [stageStep, runStage, inverseStage, invCipher, hd, hn, hr]

/-! ### The key schedule -/

theorem scheduleWord_set (w : Schedule) (i j : Nat) (v : Word) (hi : i < 60) :
    scheduleWord (w.setIfInBounds i v) j = if i = j then v else scheduleWord w j := by
  unfold scheduleWord
  by_cases h : i = j
  · subst h
    simp [Vector.getD, hi]
  · by_cases hj : j < 60
    · simp [Vector.getD, hj, h]
    · simp [Vector.getD, hj, h]

/-- The first words of a schedule with the key copied in (41_key_schedule.md R181). -/
theorem scheduleWord_copyWords (key : Nat → Word) (n : Nat) (w : Schedule) (hn : n ≤ 60) (j : Nat) :
    scheduleWord (copyWords key n w) j = if j < n then key j else scheduleWord w j := by
  induction n with
  | zero => simp [copyWords]
  | succ n ih =>
    rw [copyWords, scheduleWord_set _ _ _ _ (by omega), ih (by omega)]
    by_cases h : n = j
    · subst h; simp
    · by_cases hj : j < n
      · simp [h, hj, show j < n + 1 by omega]
      · simp [h, hj, show ¬ j < n + 1 by omega]

/-- Expansion from index i on leaves the words below i alone (41_key_schedule.md R186). -/
theorem scheduleWord_expandFrom_below (k : Strength) (n i : Nat) (w : Schedule) (h : i + n ≤ 60) {j : Nat}
    (hj : j < i) : scheduleWord (expandFrom k n i w) j = scheduleWord w j := by
  induction n generalizing i w with
  | zero => rfl
  | succ n ih =>
    rw [expandFrom, ih (i + 1) _ (by omega) (by omega), expandStep, scheduleWord_set _ _ _ _ (by omega),
      if_neg (by omega)]

theorem expandFrom_succ (k : Strength) (n i : Nat) (w : Schedule) :
    expandFrom k (n + 1) i w = expandStep k (i + n) (expandFrom k n i w) := by
  induction n generalizing i w with
  | zero => rfl
  | succ n ih =>
    rw [expandFrom, ih (i + 1)]
    rw [show i + 1 + n = i + (n + 1) by omega]
    rfl

/-- A phase's word depends on the words below its index alone (41_key_schedule.md R183, R186). -/
theorem expandWord_congr (k : Strength) {w w' : Schedule} {i : Nat} (hi : k.nk ≤ i)
    (h : ∀ j < i, scheduleWord w j = scheduleWord w' j) : expandWord k w i = expandWord k w' i := by
  have hk : 0 < k.nk := by cases k <;> decide
  unfold expandWord
  rw [h (i - 1) (by omega), h (i - k.nk) (by omega)]

end Sys2Proof.Machine
end

