-- ==== Sys2Proof/Tests/Slice0.lean ====
section
/-! SUPPORT. The model's own tests. Expected values are those of spec/95_test_vectors.md (the vector is named at each test)
or written out from the encoding of 30_encoding.md. Then, for each statement with hypotheses, a witness that meets them. -/

namespace Sys2Proof.Tests

set_option Elab.async false

open Sys2Proof.Machine

/-! ### Small states -/

/-- The bytes of a byte string written as one hexadecimal number, byte 0 leftmost (R10). -/
def bytesOf (n x : Nat) : List Byte := (List.range n).map fun j => BitVec.ofNat 8 (x >>> (8 * (n - 1 - j)))

/-- A column from four bytes. -/
def columnOf (x : Word) : Column := unpackWord x

/-- A block from a byte string. -/
def blockOf (x : Nat) : Block := readBlock (Memory.writeBytes [] 0 (bytesOf 16 x)) 0

/-- A memory with KEY, IV and MSG bytes from their start. -/
def memOf (key iv msg : List Byte) : Memory :=
  ((Memory.writeBytes [] keyBase key).writeBytes ivBase iv).writeBytes msgBase msg

/-- An IDLE block with all operand words marked as loaded, the host waiting for the end of a command. -/
def stateOf (key iv msg : List Byte) (len : Word) : State :=
  { State.reset with mem := memOf key iv msg, len := len, keyw := 0xFF#8, ivw := 0xF#4 }

/-- The next state, if there is one. -/
def nextOf (o : Host.Outcome State Fault Refusal) : Option State :=
  match o with
  | .next t => some t
  | .fault _ | .refused _ => none

/-- STATUS and a message block after a command. -/
def resultOf (i : Instr) (s : State) (b : Nat) : Option (Word × Block) :=
  (nextOf (exec i s)).map fun t => (statusWord t, msgBlock t.mem b)

def seqKey (n : Nat) : List Byte := (List.range n).map (BitVec.ofNat 8)

def plain : List Byte := bytesOf 16 0x00112233445566778899aabbccddeeff

def nistKey : List Byte := bytesOf 16 0x2b7e151628aed2a6abf7158809cf4f3c

def nistPlain : List Byte := bytesOf 32 0x6bc1bee22e409f96e93d7e117393172aae2d8a571e03ac9c9eb76fac45af8e51

/-! ### Well-formedness: an ill-formed command for each check (R102) -/

theorem test_wf_ecbEnc : WellFormed (.ecbEnc 0b11#2) = false ∧ WellFormed (.ecbEnc 0b10#2) = true := by decide
theorem test_wf_ecbDec : WellFormed (.ecbDec 0b11#2) = false ∧ WellFormed (.ecbDec 0b01#2) = true := by decide
theorem test_wf_cbcEnc : WellFormed (.cbcEnc 0b11#2) = false ∧ WellFormed (.cbcEnc 0b00#2) = true := by decide
theorem test_wf_cbcDec : WellFormed (.cbcDec 0b11#2) = false ∧ WellFormed (.cbcDec 0b10#2) = true := by decide
theorem test_wf_blk_ignores_ksize : WellFormed (.blkEnc128 0b11#2) = true := by decide

/-! ### Decoding: words written out bit by bit, RSV KSIZE OP (R100, R101) -/

theorem test_decode_ecbEnc : decode 0b00000000000000000000000000_10_0001#32 = .command (.ecbEnc 0b10#2) := by decide
theorem test_decode_ecbDec : decode 0b00000000000000000000000000_01_0010#32 = .command (.ecbDec 0b01#2) := by decide
theorem test_decode_cbcEnc : decode 0b00000000000000000000000000_01_0011#32 = .command (.cbcEnc 0b01#2) := by decide
theorem test_decode_cbcDec : decode 0b00000000000000000000000000_01_0100#32 = .command (.cbcDec 0b01#2) := by decide
theorem test_decode_blkEnc128 : decode 0b00000000000000000000000000_11_0101#32 = .command (.blkEnc128 0b11#2) := by decide
theorem test_decode_blkEnc192 : decode 0b00000000000000000000000000_00_0110#32 = .command (.blkEnc192 0b00#2) := by decide
theorem test_decode_blkEnc256 : decode 0b00000000000000000000000000_00_0111#32 = .command (.blkEnc256 0b00#2) := by decide
theorem test_decode_blkDec128 : decode 0b00000000000000000000000000_10_1000#32 = .command (.blkDec128 0b10#2) := by decide
theorem test_decode_blkDec192 : decode 0b00000000000000000000000000_00_1001#32 = .command (.blkDec192 0b00#2) := by decide
theorem test_decode_blkDec256 : decode 0b00000000000000000000000000_00_1010#32 = .command (.blkDec256 0b00#2) := by decide
theorem test_decode_reserved_op : decode 0x0#32 = .reject .badCmd ∧ decode 0xB#32 = .reject .badCmd
    ∧ decode 0xF#32 = .reject .badCmd := by decide
theorem test_decode_reserved_bits : decode 0x41#32 = .reject .badCmd ∧ decode 0x80000001#32 = .reject .badCmd := by decide
theorem test_encode_cbcDec : encode (.cbcDec 0b01#2) = 0x00000014#32 := by decide
theorem test_decodeTableWord : decodeTableWord 32 0x21 = some (.ecbEnc 0b10#2) ∧ decodeTableWord 32 0x40 = none := by
  decide

/-! ### Primitives (V4 - V8) -/

theorem test_xtime : xtime 0x80#8 = 0x1B#8 ∧ xtime 0xFF#8 = 0xE5#8 ∧ xtime 0x57#8 = 0xAE#8 := by decide
theorem test_gmul : gmul 0x57#8 0x83#8 = 0xC1#8 ∧ gmul 0x57#8 0x13#8 = 0xFE#8 ∧ gmul 0xFF#8 0xFF#8 = 0x13#8 := by decide
theorem test_ginv : ginv 0x53#8 = 0xCA#8 ∧ ginv 0x00#8 = 0x00#8 ∧ ginv 0x02#8 = 0x8D#8 := by decide +kernel
theorem test_affine : affine 0xCA#8 = 0xED#8 ∧ affineInv 0xED#8 = 0xCA#8 := by decide
theorem test_sbox : sbox 0x53#8 = 0xED#8 ∧ sbox 0xFF#8 = 0x16#8 ∧ invSbox 0xED#8 = 0x53#8 ∧ invSbox 0x00#8 = 0x52#8 := by
  decide
theorem test_shiftRows : shiftRows (blockOf 0x000102030405060708090a0b0c0d0e0f)
    = blockOf 0x00050a0f04090e03080d02070c01060b := by decide +kernel
theorem test_invShiftRows : invShiftRows (blockOf 0x63cab7040953d051cd60e0e7ba70e18c)
    = blockOf 0x6370e05109cae1e7cd53b78cba60d004 := by decide +kernel
theorem test_mixColumn : mixColumn (columnOf 0xdb135345#32) = columnOf 0x8e4da1bc#32
    ∧ mixColumn (columnOf 0x2d26314c#32) = columnOf 0x4d7ebdf8#32 := by decide +kernel
theorem test_invMixColumn : invMixColumn (columnOf 0xf20a225c#32) = columnOf 0xaec36982#32
    ∧ invMixColumn (columnOf 0x8e4da1bc#32) = columnOf 0xdb135345#32 := by decide +kernel
theorem test_rotWord_subWord : rotWord 0x09CF4F3C#32 = 0xCF4F3C09#32 ∧ subWord 0xCF4F3C09#32 = 0x8A84EB01#32
    ∧ rcon 9 = 0x1B000000#32 := by decide

/-! ### Key schedule (V9 - V12) -/

theorem test_schedule_128 :
    scheduleWord (keyExpansion .k128 (keyWord (memOf (seqKey 16) [] [])) Schedule.blank) 43 = 0x4d2b30c5#32 := by
  decide +kernel
theorem test_schedule_192 :
    scheduleWord (keyExpansion .k192 (keyWord (memOf (seqKey 24) [] [])) Schedule.blank) 51 = 0xe3a41d5d#32 := by
  decide +kernel
theorem test_schedule_256_distinguisher :
    scheduleWord (keyExpansion .k256 (keyWord (memOf (seqKey 32) [] [])) Schedule.blank) 12 = 0x1651a8cd#32 := by
  decide +kernel

/-! ### Commands (V1 - V3, V14, V15, V18), each one step -/

theorem test_blkEnc128_v1 : resultOf (.blkEnc128 0b11#2) (stateOf (seqKey 16) [] plain 1#32) 0
    = some (0x2#32, blockOf 0x69c4e0d86a7b0430d8cdb78070b4c55a) := by decide +kernel
theorem test_blkEnc192_v2 : resultOf (.blkEnc192 0#2) (stateOf (seqKey 24) [] plain 16#32) 0
    = some (0x2#32, blockOf 0xdda97ca4864cdfe06eaf70a0ec0d7191) := by decide +kernel
theorem test_blkEnc256_v3 : resultOf (.blkEnc256 0#2) (stateOf (seqKey 32) [] plain 16#32) 0
    = some (0x2#32, blockOf 0x8ea2b7ca516745bfeafc49904b496089) := by decide +kernel
theorem test_blkDec128_v18 :
    resultOf (.blkDec128 0#2) (stateOf (seqKey 16) [] (bytesOf 16 0x69c4e0d86a7b0430d8cdb78070b4c55a) 16#32) 0
      = some (0x2#32, blockOf 0x00112233445566778899aabbccddeeff) := by decide +kernel
theorem test_blkDec192_v18 :
    resultOf (.blkDec192 0#2) (stateOf (seqKey 24) [] (bytesOf 16 0xdda97ca4864cdfe06eaf70a0ec0d7191) 16#32) 0
      = some (0x2#32, blockOf 0x00112233445566778899aabbccddeeff) := by decide +kernel
theorem test_blkDec256_v18 :
    resultOf (.blkDec256 0#2) (stateOf (seqKey 32) [] (bytesOf 16 0x8ea2b7ca516745bfeafc49904b496089) 16#32) 0
      = some (0x2#32, blockOf 0x00112233445566778899aabbccddeeff) := by decide +kernel
theorem test_ecbEnc_v14 : resultOf (.ecbEnc 0#2) (stateOf nistKey [] nistPlain 17#32) 1
    = some (0x2#32, blockOf 0xf5d3d58503b9699de785895a96fdbaaf) := by decide +kernel
theorem test_ecbDec_v14 :
    resultOf (.ecbDec 0#2) (stateOf nistKey [] (bytesOf 16 0x3ad77bb40d7a3660a89ecaf32466ef97) 16#32) 0
      = some (0x2#32, blockOf 0x6bc1bee22e409f96e93d7e117393172a) := by decide +kernel
theorem test_cbcEnc_v15 : resultOf (.cbcEnc 0#2) (stateOf nistKey (seqKey 16) nistPlain 32#32) 1
    = some (0x2#32, blockOf 0x5086cb9b507219ee95db113a917678b2) := by decide +kernel
theorem test_cbcDec_v15 :
    resultOf (.cbcDec 0#2) (stateOf nistKey (seqKey 16)
        (bytesOf 32 0x7649abac8119b246cee98e9b12e9197d5086cb9b507219ee95db113a917678b2) 32#32) 1
      = some (0x2#32, blockOf 0xae2d8a571e03ac9c9eb76fac45af8e51) := by decide +kernel

/-! ### Rejections (V19), BUSY, host accesses (V22) -/

theorem test_reject_order :
    (nextOf (step (State.reset.withFetchWord 32 0x33))).map statusWord = some 0x26#32
    ∧ (nextOf (step (State.reset.withFetchWord 32 0x03))).map statusWord = some 0x36#32
    ∧ (nextOf (step ({ State.reset with keyw := 0xF#8 }.withFetchWord 32 0x03))).map statusWord = some 0x46#32
    ∧ (nextOf (step ({ State.reset with keyw := 0xF#8 }.withFetchWord 32 0x05))).map statusWord = some 0x56#32
    ∧ (nextOf (step ({ State.reset with keyw := 0xF#8, len := 65#32 }.withFetchWord 32 0x01))).map statusWord
        = some 0x66#32
    ∧ (nextOf (step (State.reset.withFetchWord 32 0x41))).map statusWord = some 0x16#32 := by decide +kernel

theorem test_busy_window :
    (nextOf (exec (.ecbEnc 0#2) { stateOf (seqKey 16) [] plain 16#32 with quiet := some 3 })).map
      (fun t => (statusWord t, t.seq)) = some (0x1#32, .expand 7) := by decide +kernel

theorem test_misaligned_write_is_busError :
    (nextOf (step { State.reset with inputs := [.access ⟨true, 0x020#12, 0b00#2, 5#32⟩ none] })).map
      (fun t => (t.resp, t.mem, t.keyw)) = some (.busError, [], 0#8) := by decide +kernel

theorem test_key_write_marks_loaded :
    (nextOf (step { State.reset with inputs := [wr 0x03C#12 0#32 none] })).map loadedWord = some 0x80#32 := by
  decide +kernel

theorem test_status_write_one_clears :
    (nextOf (step { State.reset with done := true, err := true, cause := .lenMax, inputs := [wr 0x004#12 2#32 none] })).map
      statusWord = some 0x64#32 := by decide +kernel

theorem test_power_event_refused : step { State.reset with inputs := [.powerEvent] } = .refused .powerEvent := rfl

/-! ### Witnesses: a state and operands that meet the hypotheses of each statement -/

theorem hostWaits_of_none {s : State} (h : s.quiet = none) (n : Nat) : HostWaits n s := by
  intro m hm
  rw [h] at hm
  cases hm

/-- An IDLE block with everything loaded and LEN as given. -/
def ready (len : Word) : State := stateOf (seqKey 32) (seqKey 16) nistPlain len

/-- A block that runs ECB_ENC K128 over one block, just accepted. -/
def running : State :=
  { ready 16#32 with busy := true, seq := .expand 4, nblk := 1, latchedLen := 16#32 }

theorem witness_DecodeAndEncodeAgree : decode 0x00000021#32 = .command (.ecbEnc 0b10#2) := by decide

theorem witness_DecodeOfEveryCommandWord :
    ReservedWord 0x40#32 ∧ ReservedWord 0x80000001#32 ∧ ReservedWord 0x0#32 ∧ ReservedWord 0xB#32 ∧ ReservedWord 0xF#32
    ∧ (¬ ReservedWord 0x31#32 ∧ OutOfRangeKsize 0x31#32) ∧ (¬ ReservedWord 0x34#32 ∧ OutOfRangeKsize 0x34#32)
    ∧ (¬ ReservedWord 0x01#32 ∧ ¬ OutOfRangeKsize 0x01#32) ∧ (¬ ReservedWord 0x24#32 ∧ ¬ OutOfRangeKsize 0x24#32)
    ∧ (¬ ReservedWord 0x35#32 ∧ ¬ OutOfRangeKsize 0x35#32) ∧ (¬ ReservedWord 0x3A#32 ∧ ¬ OutOfRangeKsize 0x3A#32) := by
  decide

theorem witness_SubstitutionIsAffineOfInverse : gmul 0x53#8 0xCA#8 = 0x01#8 ∧ (0xFF#8 : Byte) ≠ 0x00#8 := by decide

theorem witness_KeyScheduleRecurrence :
    0 < Strength.k128.nk ∧ 7 < Strength.k256.nk
    ∧ (Strength.k192.nk ≤ 6 ∧ 6 < 4 * (Strength.k192.nr + 1))
    ∧ (Strength.k256.nk ≤ 59 ∧ 59 < 4 * (Strength.k256.nr + 1)) := by decide

theorem witness_ScheduleIgnoresEarlierWords : 0 < Strength.k128.words ∧ 59 < Strength.k256.words := by decide

theorem witness_ExpansionCompletesBeforeFirstRound :
    39 < Strength.k128.words - Strength.k128.nk ∧ 51 < Strength.k256.words - Strength.k256.nk := by decide

theorem witness_AcceptedCommandIsLatched :
    (Instr.cbcDec 0b10#2).resolve = .command ⟨.cbcDec, .k256, 64⟩
    ∧ Ready ⟨.cbcDec, .k256, 64⟩ { ready 64#32 with quiet := some 0 }
    ∧ ({ ready 64#32 with quiet := some 0 } : State).quiet = some 0 := by decide +kernel

theorem witness_EcbEncTransformsEveryBlock :
    strengthOf 0b00#2 = some .k128 ∧ Ready ⟨.ecbEnc, .k128, 64⟩ (ready 1#32)
    ∧ HostWaits (commandPhases .k128 (blockCount (ready 1#32).len)) (ready 1#32)
    ∧ Ready ⟨.ecbEnc, .k128, 64⟩ (ready 64#32) ∧ 3 < blockCount (ready 64#32).len :=
  ⟨by decide, by decide +kernel, hostWaits_of_none rfl _, by decide +kernel, by decide +kernel⟩

theorem witness_EcbDecTransformsEveryBlock :
    strengthOf 0b01#2 = some .k192 ∧ Ready ⟨.ecbDec, .k192, 64⟩ (ready 64#32)
    ∧ HostWaits (commandPhases .k192 (blockCount (ready 64#32).len)) (ready 64#32) :=
  ⟨by decide, by decide +kernel, hostWaits_of_none rfl _⟩

theorem witness_CbcEncChainsCiphertext :
    strengthOf 0b10#2 = some .k256 ∧ Ready ⟨.cbcEnc, .k256, 64⟩ (ready 49#32)
    ∧ HostWaits (commandPhases .k256 (blockCount (ready 49#32).len)) (ready 49#32) :=
  ⟨by decide, by decide +kernel, hostWaits_of_none rfl _⟩

theorem witness_CbcDecUsesOriginalCiphertext :
    strengthOf 0b00#2 = some .k128 ∧ Ready ⟨.cbcDec, .k128, 64⟩ (ready 64#32)
    ∧ HostWaits (commandPhases .k128 (blockCount (ready 64#32).len)) (ready 64#32) :=
  ⟨by decide, by decide +kernel, hostWaits_of_none rfl _⟩

theorem witness_BlkEncTransformsFirstBlock :
    Ready ⟨.blkEnc128, .k128, 16⟩ (ready 1#32) ∧ Ready ⟨.blkEnc192, .k192, 16⟩ (ready 16#32)
    ∧ Ready ⟨.blkEnc256, .k256, 16⟩ (ready 16#32) ∧ HostWaits (commandPhases .k256 1) (ready 16#32) :=
  ⟨by decide +kernel, by decide +kernel, by decide +kernel, hostWaits_of_none rfl _⟩

theorem witness_BlkDecTransformsFirstBlock :
    Ready ⟨.blkDec128, .k128, 16⟩ (ready 1#32) ∧ Ready ⟨.blkDec192, .k192, 16⟩ (ready 16#32)
    ∧ Ready ⟨.blkDec256, .k256, 16⟩ (ready 16#32) ∧ HostWaits (commandPhases .k128 1) (ready 1#32) :=
  ⟨by decide +kernel, by decide +kernel, by decide +kernel, hostWaits_of_none rfl _⟩

theorem witness_DecryptAfterEncryptRestores :
    (Instr.cbcEnc 0b01#2).resolve = .command ⟨.cbcEnc, .k192, 64⟩ ∧ Ready ⟨.cbcEnc, .k192, 64⟩ (ready 33#32)
    ∧ HostWaits (commandPhases .k192 (blockCount (ready 33#32).len)) (ready 33#32)
    ∧ (Instr.blkEnc256 0b11#2).resolve = .command ⟨.blkEnc256, .k256, 16⟩
    ∧ Ready ⟨.blkEnc256, .k256, 16⟩ (ready 16#32) :=
  ⟨by decide, by decide +kernel, hostWaits_of_none rfl _, by decide, by decide +kernel⟩

theorem witness_CbcBitErrorStaysInTwoBlocks :
    strengthOf 0b00#2 = some .k128 ∧ Ready ⟨.cbcDec, .k128, 64⟩ (ready 32#32)
    ∧ HostWaits (commandPhases .k128 (blockCount (ready 32#32).len)) (ready 32#32)
    ∧ 0 + 1 < blockCount (ready 32#32).len
    ∧ ∀ a, ((ready 32#32).mem.write (msgBase + (16 * 0 + 5)) ((ready 32#32).mem.read (msgBase + (16 * 0 + 5)) ^^^ (1#8 <<< 7))).read a
        = if a = msgBase + (16 * 0 + 5) then (ready 32#32).mem.read a ^^^ (1#8 <<< 7) else (ready 32#32).mem.read a := by
  refine ⟨by decide, by decide +kernel, hostWaits_of_none rfl _, by decide +kernel, fun a => ?_⟩
  by_cases h : a = msgBase + (16 * 0 + 5)
  · rw [if_pos h, h, Memory.read_write_same]
  · rw [if_neg h, Memory.read_write_other _ _ h]

/-- `ready` with other bytes where an AES-128 ECB command does not look: KEY[16..31] and IV. -/
def readyElsewhere : State := stateOf (seqKey 16) [] nistPlain 32#32

theorem witness_OnlyOperandsMatter :
    (Instr.ecbEnc 0b00#2).resolve = .command ⟨.ecbEnc, .k128, 64⟩ ∧ Ready ⟨.ecbEnc, .k128, 64⟩ (ready 32#32)
    ∧ Ready ⟨.ecbEnc, .k128, 64⟩ readyElsewhere ∧ SameOperands ⟨.ecbEnc, .k128, 64⟩ (ready 32#32) readyElsewhere
    ∧ keyByte readyElsewhere.mem 16 ≠ keyByte (ready 32#32).mem 16
    ∧ HostWaits (commandPhases .k128 (blockCount (ready 32#32).len)) (ready 32#32)
    ∧ HostWaits (commandPhases .k128 (blockCount (ready 32#32).len)) readyElsewhere :=
  ⟨by decide, by decide +kernel, by decide +kernel,
    ⟨rfl, by decide +kernel, by decide +kernel, by decide +kernel⟩, by decide +kernel,
    hostWaits_of_none rfl _, hostWaits_of_none rfl _⟩

theorem witness_InternalStateIsUnobservable :
    Idle (ready 16#32)
    ∧ SameOutside (ready 16#32)
        { ready 16#32 with st := blockOf 0x0f, nblk := 9, op := .cbcDec, strength := .k256, latchedLen := 7#32 }
    ∧ (ready 16#32).quiet = none := ⟨by decide +kernel, rfl, rfl⟩

theorem witness_FirstFailingCheckRejects :
    State.reset.busy = false ∧ ReservedWord 0x0#32 ∧ (¬ ReservedWord 0x33#32 ∧ OutOfRangeKsize 0x33#32)
    ∧ decodeCommand 0x03#32 = .command ⟨.cbcEnc, .k128, 64⟩
    ∧ (∃ n < Strength.k128.nk, State.reset.keyw.getLsbD n = false)
    ∧ ((∀ n < Strength.k128.nk, (0x0F#8).getLsbD n = true) ∧ Op.cbcEnc.mode = .cbc ∧ State.reset.ivw ≠ 0xF#4)
    ∧ decodeCommand 0x05#32 = .command ⟨.blkEnc128, .k128, 16⟩ ∧ State.reset.len = 0#32
    ∧ 16 < (17#32 : Word).toNat := by decide

theorem witness_ModeCommandWithBadKsizeRejects : State.reset.busy = false := rfl

theorem witness_RejectionStatusWords : State.reset.busy = false := rfl

theorem witness_EngineWritesOnlyMessageBlocks :
    Inv (ready 16#32) ∧ Inv running ∧ exec (.blkEnc128 0#2) State.reset = .next (State.reset.rejected .noKey)
    ∧ Inv State.reset := ⟨by decide +kernel, by decide +kernel, rfl, by decide +kernel⟩

theorem witness_RunningCommandCompletes : Inv running ∧ running.busy = true ∧ running.inputs = [] :=
  ⟨by decide +kernel, rfl, rfl⟩

theorem witness_PollOfBusyEnds :
    Inv { running with inputs := [.poll 0x004#12 0x00000001#32 0x00000000#32 (some 0)] } := by decide +kernel

theorem witness_KeyWriteStoresAndMarks :
    7 < 8 ∧ Idle { State.reset with inputs := [wr (BitVec.ofNat 12 (0x020 + 4 * 7)) 5#32 none] } := by decide

theorem witness_IvWriteStoresAndMarks :
    3 < 4 ∧ Idle { State.reset with inputs := [wr (BitVec.ofNat 12 (0x040 + 4 * 3)) 5#32 none] } := by decide

theorem witness_MsgWriteStores :
    15 < 16 ∧ Idle { State.reset with inputs := [wr (BitVec.ofNat 12 (0x080 + 4 * 15)) 5#32 none] } := by decide

theorem witness_ControlRegisterWrites :
    Idle { State.reset with inputs := [wr 0x004#12 2#32 none] } ∧ Idle { State.reset with inputs := [wr 0x008#12 1#32 none] }
    ∧ Idle { State.reset with inputs := [wr 0x00C#12 1#32 none] }
    ∧ Idle { State.reset with inputs := [wr 0x010#12 1#32 none] } := by decide

theorem witness_ReadAnswersRegisterValue :
    (0x07C#12 : Offset).toNat % 4 = 0 ∧ ({ running with inputs := [rd 0x07C#12 none] } : State).inputs = [rd 0x07C#12 none]
    ∧ ¬ (0x080 ≤ (0x07C#12 : Offset).toNat ∧ (0x07C#12 : Offset).toNat < 0x0C0)
    ∧ (0x020#12 : Offset).toNat = 0x020 + 4 * 0 ∧ (0x03C#12 : Offset).toNat = 0x020 + 4 * 7
    ∧ (0x040#12 : Offset).toNat = 0x040 + 4 * 0 ∧ (0x04C#12 : Offset).toNat = 0x040 + 4 * 3
    ∧ (0x080#12 : Offset).toNat = 0x080 + 4 * 0 ∧ (0x0BC#12 : Offset).toNat = 0x080 + 4 * 15
    ∧ 0x0C0 ≤ (0xFFC#12 : Offset).toNat := by decide

theorem witness_ReservedOffsetsReadZeroIgnoreWrites :
    [0x014#12, 0x01C#12, 0x050#12, 0x07C#12, 0x0C0#12, 0xFFC#12].all (fun off : Offset => decide (off.toNat % 4 = 0
      ∧ (0x014 ≤ off.toNat ∧ off.toNat < 0x020 ∨ 0x050 ≤ off.toNat ∧ off.toNat < 0x080 ∨ 0x0C0 ≤ off.toNat))) = true := by decide

theorem witness_IllegalAccessIsBusError :
    (⟨true, 0x020#12, 0b00#2, 5#32⟩ : Access).size ≠ 0b10#2 ∧ (⟨false, 0x006#12, 0b10#2, 0#32⟩ : Access).addr.toNat % 4 ≠ 0
    ∧ (⟨false, 0x004#12, 0b11#2, 0#32⟩ : Access).size ≠ 0b10#2 := by decide

theorem witness_FaultExactlyOnOperandHazard :
    step { running with inputs := [wr 0x020#12 0#32 none] } = .fault (.operandWriteWhileBusy 0x020#12)
    ∧ step { running with inputs := [wr 0x04C#12 0#32 none] } = .fault (.operandWriteWhileBusy 0x04C#12)
    ∧ step { running with inputs := [wr 0x0BC#12 0#32 none] } = .fault (.operandWriteWhileBusy 0x0BC#12) :=
  ⟨rfl, rfl, rfl⟩

theorem witness_MsgReadWhileBusyIsFree :
    running.busy = true ∧ (0x0BC#12 : Offset).toNat % 4 = 0 ∧ 0x080 ≤ (0x0BC#12 : Offset).toNat
    ∧ (0x0BC#12 : Offset).toNat < 0x0C0 := by decide

theorem witness_CommandWhileBusyIsIgnored :
    ({ running with inputs := [wr 0x000#12 0x5#32 none] } : State).busy = true := rfl

theorem witness_ControlWritesWhileBusy :
    Inv { running with inputs := [wr 0x00C#12 99#32 none] } ∧ Inv { running with inputs := [wr 0x008#12 1#32 none] }
    ∧ Inv { running with inputs := [wr 0x004#12 2#32 none] } ∧ running.busy = true :=
  ⟨by decide +kernel, by decide +kernel, by decide +kernel, rfl⟩

theorem witness_IrqFollowsDoneAndEnable :
    State.reset.busy = false ∧ exec (.blkEnc128 0#2) State.reset = .next (State.reset.rejected .noKey)
    ∧ (State.reset.rejected .noKey).busy = false
    ∧ Idle { State.reset with inputs := [wr 0x004#12 2#32 none] } ∧ (2#32 : Word).getLsbD 1 = true
    ∧ Idle { State.reset with done := true, inputs := [wr 0x008#12 1#32 none] }
    ∧ (nextOf (exec (.ecbEnc 0#2) { ready 16#32 with quiet := some 0 })).map (fun t => t.busy) = some true :=
  ⟨rfl, rfl, rfl, by decide, by decide, by decide, by decide +kernel⟩

theorem witness_ResetReadsZeroEverywhere : (0xFFC#12 : Offset).toNat % 4 = 0 := by decide

theorem witness_ResetEdgeAborts : ({ running with inputs := [.resetEdge] } : State).inputs = [.resetEdge] := rfl

theorem witness_InvariantKeptByEveryStep :
    Inv { State.reset with inputs := [wr 0x008#12 1#32 none] }
    ∧ (nextOf (step { State.reset with inputs := [wr 0x008#12 1#32 none] })).isSome = true := by decide +kernel

theorem witness_KeyAndIvChangeOnlyByHostWrite :
    (nextOf (step { State.reset with inputs := [wr 0x020#12 7#32 none] })).map (fun t => t.mem.read 0x020) = some 7#8
    ∧ State.reset.mem.read 0x020 = 0#8 ∧ 0x020 < 0x050 := by decide +kernel

theorem witness_LoadedBitsSetByWritesClearedByReset :
    (nextOf (step { State.reset with inputs := [wr 0x02C#12 7#32 none] })).map (fun t => t.keyw) = some 0x08#8
    ∧ (nextOf (step { State.reset with inputs := [wr 0x04C#12 7#32 none] })).map (fun t => t.ivw) = some 0x8#4 := by
  decide +kernel

theorem witness_StepRunsDecodedCommand :
    decode 0x00000005#32 = .command (.blkEnc128 0#2)
    ∧ ({ State.reset with inputs := [wr 0x000#12 0x5#32 none] } : State).inputs = [wr 0x000#12 0x5#32 none] :=
  ⟨by decide, rfl⟩

theorem witness_LoadKeyStoresKeyBytes :
    (seqKey 24).length = 4 * Strength.k192.nk ∧ Idle { State.reset with inputs := ldKey (seqKey 24) ++ [Machine.ack (some 0)] } := by
  decide

end Sys2Proof.Tests
end

section
/-! SUPPORT. What one phase of the engine changes, said once: the fields it writes, the one message block it can store, and
the range its sequencer stays in (10_state.md R48, 20_memory.md R85). -/

namespace Sys2Proof.Machine

/-! ### The fields a phase writes -/

theorem enterBlock_eq (b k : Nat) (s : State) :
    enterBlock b k s = { s with st := (enterBlock b k s).st, chain := (enterBlock b k s).chain } := by
  unfold enterBlock
  split
  · exact loadBlock_eq b s
  · rfl

@[simp] theorem enterBlock_mem (b k : Nat) (s : State) : (enterBlock b k s).mem = s.mem := by
  rw [enterBlock_eq]

theorem expandPhase_eq (i : Nat) (s : State) :
    expandPhase i s = { s with w := (expandPhase i s).w, seq := (expandPhase i s).seq } := by
  unfold expandPhase
  split <;> rfl

theorem endBlock_eq (b : Nat) (s : State) :
    endBlock b s = { s with mem := (endBlock b s).mem, st := (endBlock b s).st, chain := (endBlock b s).chain,
                            seq := (endBlock b s).seq } := by
  unfold endBlock
  rw [sealBlock_eq]
  split <;> rfl

theorem blockPhase_eq (b k : Nat) (s : State) :
    blockPhase b k s = { s with mem := (blockPhase b k s).mem, st := (blockPhase b k s).st,
                                chain := (blockPhase b k s).chain, seq := (blockPhase b k s).seq } := by
  unfold blockPhase
  rw [endBlock_eq, enterBlock_eq]
  split <;> rfl

/-- Only FINISH touches BUSY, DONE, ERR and CAUSE (43_modes.md R247). -/
theorem phaseStep_eq_of_ne_finish {s : State} (h : s.seq ≠ .finish) :
    phaseStep s = { s with mem := (phaseStep s).mem, st := (phaseStep s).st, w := (phaseStep s).w,
                           chain := (phaseStep s).chain, seq := (phaseStep s).seq } := by
  cases hs : s.seq with
  | idle => rw [phaseStep_idle hs]
  | expand i => rw [phaseStep_expand hs, expandPhase_eq]
  | block b k => rw [phaseStep_block hs, blockPhase_eq]
  | finish => exact absurd hs h

/-- No phase raises ERR. -/
theorem err_phaseStep {s : State} (h : s.err = false) : (phaseStep s).err = false := by
  by_cases hs : s.seq = .finish
  · rw [phaseStep_finish hs]
    rfl
  · rw [phaseStep_eq_of_ne_finish hs]
    exact h

theorem err_runPhases {s : State} (h : s.err = false) (n : Nat) : (runPhases n s).err = false := by
  induction n generalizing s with
  | zero => exact h
  | succ n ih => exact ih (err_phaseStep h)

/-! ### The message block a phase stores -/

/-- The block whose result the engine can store in its present phase (10_state.md R48). -/
def currentBlock (s : State) : Option Nat :=
  match s.seq with
  | .idle | .expand _ => none
  | .block b _ => some b
  | .finish => some (finalBlock s.op s.nblk)

theorem endBlock_mem_cases (b : Nat) (s : State) :
    (endBlock b s).mem = s.mem ∨ ∃ x, (endBlock b s).mem = writeMsgBlock s.mem b x := by
  unfold endBlock
  rw [sealBlock_eq]
  split
  · exact .inl rfl
  · exact .inr ⟨_, rfl⟩

theorem blockPhase_mem_cases (b k : Nat) (s : State) :
    (blockPhase b k s).mem = s.mem ∨ ∃ x, (blockPhase b k s).mem = writeMsgBlock s.mem b x := by
  have hmem : (stageStep k (enterBlock b k s)).mem = s.mem := enterBlock_mem b k s
  unfold blockPhase
  split
  · rw [← hmem]
    exact endBlock_mem_cases b _
  · exact .inl hmem

/-- A phase leaves the memory alone or stores its own block. -/
theorem phaseStep_mem_cases (s : State) :
    (phaseStep s).mem = s.mem
      ∨ ∃ b x, currentBlock s = some b ∧ (phaseStep s).mem = writeMsgBlock s.mem b x := by
  cases hs : s.seq with
  | idle => exact .inl (by rw [phaseStep_idle hs])
  | expand i => exact .inl (by rw [phaseStep_expand hs, expandPhase_eq])
  | block b k =>
    rw [phaseStep_block hs]
    exact (blockPhase_mem_cases b k s).imp id fun ⟨x, hx⟩ => ⟨b, x, by simp [currentBlock, hs], hx⟩
  | finish =>
    rw [phaseStep_finish hs]
    exact .inr ⟨finalBlock s.op s.nblk, s.st, by simp [currentBlock, hs], rfl⟩

/-! ### The range of the sequencer -/

/-- The sequencer stands at a phase of its command, and a command in flight has a block. -/
def EngineInRange (s : State) : Prop :=
  phaseInRange s.strength s.nblk s.seq = true ∧ (s.seq ≠ .idle → 1 ≤ s.nblk)

theorem EngineInRange.of_inv {s : State} (h : Inv s) : EngineInRange s := by
  obtain ⟨-, -, hbusy, hrange, hrun, -⟩ := h
  refine ⟨hrange, fun hs => ?_⟩
  obtain ⟨-, -, -, -, -, -, hpos, -⟩ := hrun (hbusy.mpr hs)
  exact hpos

theorem finalBlock_lt {nblk : Nat} (op : Op) (h : 1 ≤ nblk) : finalBlock op nblk < nblk := by
  unfold finalBlock
  split <;> omega

theorem firstBlock_lt {nblk : Nat} (op : Op) (h : 1 ≤ nblk) : firstBlock op nblk < nblk := by
  unfold firstBlock
  split <;> omega

theorem nextBlock_lt {op : Op} {b nblk : Nat} (h : b < nblk) (hb : b ≠ finalBlock op nblk) :
    nextBlock op b < nblk := by
  by_cases hop : op = .cbcDec
  · simp only [nextBlock, hop, if_true]
    omega
  · simp only [finalBlock, hop, if_false] at hb
    simp only [nextBlock, hop, if_false]
    omega

theorem firstStage_le (d : Dir) (nr : Nat) : firstStage d nr ≤ nr := by
  cases d <;> simp [firstStage]

theorem nextStage_le {d : Dir} {k nr : Nat} (h : k ≤ nr) (hk : k ≠ lastStage d nr) : nextStage d k ≤ nr := by
  cases d <;> simp only [lastStage, nextStage] at * <;> omega

theorem currentBlock_lt {s : State} {b : Nat} (h : EngineInRange s) (hb : currentBlock s = some b) : b < s.nblk := by
  obtain ⟨hrange, hpos⟩ := h
  cases hs : s.seq with
  | idle => simp [currentBlock, hs] at hb
  | expand i => simp [currentBlock, hs] at hb
  | block c k =>
    simp only [currentBlock, hs, Option.some.injEq] at hb
    simp only [phaseInRange, hs, Bool.and_eq_true, decide_eq_true_eq] at hrange
    exact hb ▸ hrange.1
  | finish =>
    simp only [currentBlock, hs, Option.some.injEq] at hb
    exact hb ▸ finalBlock_lt s.op (hpos (by simp [hs]))

theorem phaseInRange_expandPhase {s : State} {i : Nat} (hpos : 1 ≤ s.nblk) (hi : s.strength.nk ≤ i) :
    phaseInRange s.strength s.nblk (expandPhase i s).seq = true := by
  unfold expandPhase
  split
  next hlt => simp [phaseInRange, hlt, Nat.le_succ_of_le hi]
  next => simp [phaseInRange, firstBlock_lt _ hpos, firstStage_le]

theorem phaseInRange_endBlock {s : State} {b : Nat} (hb : b < s.nblk) :
    phaseInRange s.strength s.nblk (endBlock b s).seq = true := by
  unfold endBlock
  split
  next => rfl
  next hne =>
    rw [sealBlock_eq]
    simp [phaseInRange, nextBlock_lt hb hne, firstStage_le]

theorem phaseInRange_blockPhase {s : State} {b k : Nat} (hb : b < s.nblk) (hk : k ≤ s.strength.nr) :
    phaseInRange s.strength s.nblk (blockPhase b k s).seq = true := by
  unfold blockPhase
  rw [enterBlock_eq]
  split
  next => exact phaseInRange_endBlock (s := stageStep k { s with st := _, chain := _ }) hb
  next hne => simp [phaseInRange, hb, nextStage_le hk hne]

/-- The sequencer moves from a phase of its command to a phase of its command. -/
theorem phaseInRange_phaseStep {s : State} (h : EngineInRange s) :
    phaseInRange s.strength s.nblk (phaseStep s).seq = true := by
  obtain ⟨hrange, hpos⟩ := h
  cases hs : s.seq with
  | idle => rwa [phaseStep_idle hs]
  | expand i =>
    simp only [phaseInRange, hs, Bool.and_eq_true, decide_eq_true_eq] at hrange
    rw [phaseStep_expand hs]
    exact phaseInRange_expandPhase (hpos (by simp [hs])) hrange.1
  | block b k =>
    simp only [phaseInRange, hs, Bool.and_eq_true, decide_eq_true_eq] at hrange
    rw [phaseStep_block hs]
    exact phaseInRange_blockPhase hrange.1 hrange.2
  | finish =>
    rw [phaseStep_finish hs]
    rfl

/-- IDLE stays IDLE, so a phase that ends in flight began in flight. -/
theorem seq_ne_idle_of_phaseStep {s : State} (h : (phaseStep s).seq ≠ .idle) : s.seq ≠ .idle :=
  fun hs => h (by rw [phaseStep_idle hs, hs])

theorem engineInRange_phaseStep {s : State} (h : EngineInRange s) : EngineInRange (phaseStep s) := by
  have hk := engineKeeps_phaseStep s
  refine ⟨?_, fun hs => ?_⟩
  · rw [hk.strength, hk.nblk]
    exact phaseInRange_phaseStep h
  · rw [hk.nblk]
    exact h.2 (seq_ne_idle_of_phaseStep hs)

/-! ### The frame of any number of phases (20_memory.md R85) -/

theorem EngineKeeps.registersKept {s t : State} (h : EngineKeeps s t) : RegistersKept s t :=
  ⟨h.len, h.irqEn, h.keyw, h.ivw, h.inputs, h.quiet, h.resp, h.freeCount⟩

theorem memoryKeptOutside_phaseStep {s : State} (h : EngineInRange s) : MemoryKeptOutside s.nblk s (phaseStep s) := by
  intro a ha
  obtain hm | ⟨b, x, hb, hm⟩ := phaseStep_mem_cases s
  · rw [hm]
  · have hlt := currentBlock_lt h hb
    rw [hm]
    exact read_writeMsgBlock_outside s.mem b x (by omega)

/-- From a phase in range, any number of phases writes only the message blocks of the command. -/
theorem memoryKeptOutside_runPhases {s : State} (h : EngineInRange s) (n : Nat) :
    MemoryKeptOutside s.nblk s (runPhases n s) := by
  induction n generalizing s with
  | zero => exact fun _ _ => rfl
  | succ n ih =>
    intro a ha
    have hn := (engineKeeps_phaseStep s).nblk
    calc (runPhases (n + 1) s).mem.read a
        = (phaseStep s).mem.read a := ih (engineInRange_phaseStep h) a (hn.symm ▸ ha)
      _ = s.mem.read a := memoryKeptOutside_phaseStep h a ha

theorem advance_eq_runPhases (s : State) : ∃ n, advance s = runPhases n s := by
  unfold advance
  cases s.quiet with
  | none => exact ⟨_, rfl⟩
  | some n => exact ⟨n, rfl⟩

/-! ### The frame of a command -/

/-- A command that passes the checks has a message (60_exceptions.md R282, LENZERO). -/
theorem blockCount_pos_of_validate {d : Resolved} {s : State} (h : validate d s = .none) : 1 ≤ blockCount s.len := by
  have hlen : s.len.toNat ≠ 0 := by
    intro h0
    unfold validate at h
    split_ifs at h
  unfold blockCount
  omega

theorem engineInRange_accept {d : Resolved} {s : State} (h : validate d s = .none) : EngineInRange (accept d s) := by
  refine ⟨?_, fun _ => blockCount_pos_of_validate h⟩
  cases hd : d.strength <;> simp [phaseInRange, hd, Strength.nk, Strength.words, Strength.nr]

/-- The frame of a command, in each of its three cases: the running command goes on, a rejection, an acceptance. -/
theorem command_frame {s : State} (h : Inv s) (r : Resolution) :
    RegistersKept s (command r s)
      ∧ MemoryKeptOutside (if s.busy then s.nblk else blockCount s.len) s (command r s)
      ∧ (s.busy = false → (command r s).err = true → (command r s).mem = s.mem) := by
  obtain ⟨hb, hc⟩ | ⟨hb, c, hc⟩ | ⟨hb, d, -, hv, hc⟩ := command_cases r s <;> rw [hc]
  · obtain ⟨n, hn⟩ := advance_eq_runPhases s
    rw [hn, if_pos hb]
    refine ⟨(engineKeeps_runPhases n s).registersKept, memoryKeptOutside_runPhases (.of_inv h) n, fun hb' => ?_⟩
    simp [hb] at hb'
  · refine ⟨⟨rfl, rfl, rfl, rfl, rfl, rfl, rfl, rfl⟩, fun _ _ => rfl, fun _ _ => rfl⟩
  · obtain ⟨n, hn⟩ := advance_eq_runPhases (accept d s.clearOutcome)
    have herr : (runPhases n (accept d s.clearOutcome)).err = false := err_runPhases rfl n
    have hkeep : RegistersKept s (runPhases n (accept d s.clearOutcome)) :=
      (engineKeeps_runPhases n (accept d s.clearOutcome)).registersKept
    rw [hn, hb]
    refine ⟨hkeep, memoryKeptOutside_runPhases (engineInRange_accept hv) n, fun _ he => ?_⟩
    simp [herr] at he

end Sys2Proof.Machine

open Sys2Proof Sys2Proof.Machine

/-- Settles O25: a command's outcome is a run of phases or a rejection, and every phase stores at most a block below
nblk. -/
theorem engineWritesOnlyMessageBlocks : Obligations.EngineWritesOnlyMessageBlocks := by
  refine ⟨fun i s t hinv hexec => ?_, fun n s hinv => ?_⟩
  · rw [exec_eq_command, Host.Outcome.next.injEq] at hexec
    exact hexec ▸ command_frame hinv i.resolve
  · exact ⟨(engineKeeps_runPhases n s).registersKept, memoryKeptOutside_runPhases (.of_inv hinv) n⟩

end

section
/-! SUPPORT. What a legal read or write of the register window does, said once, and the registers at each offset
(20_memory.md R71 - R76). -/

namespace Sys2Proof.Machine

/-! ### The offset map at an offset given as a number -/

/-- The reserved offsets of the window (20_memory.md R71, R73). -/
theorem regAt_reserved {off : Offset}
    (h : 0x014 ≤ off.toNat ∧ off.toNat < 0x020 ∨ 0x050 ≤ off.toNat ∧ off.toNat < 0x080 ∨ 0x0C0 ≤ off.toNat) :
    regAt off = .reserved := by
  have hkey : keyBase = 0x020 := rfl
  have hiv : ivBase = 0x040 := rfl
  have hmsg : msgBase = 0x080 := rfl
  have hmax : Config.maxLen = 64 := rfl
  unfold regAt offsetMap
  iterate 8 rw [if_neg (by omega)]

theorem eq_ofNat_of_toNat {off : Offset} {n : Nat} (h : off.toNat = n) : off = BitVec.ofNat 12 n := by
  rw [← h, BitVec.ofNat_toNat, BitVec.setWidth_eq]

theorem regAt_of_toNat_key {off : Offset} {k : Nat} (hk : k < 8) (h : off.toNat = 0x020 + 4 * k) :
    regAt off = .key k := by
  rw [eq_ofNat_of_toNat h]
  exact regAt_keyOffset k hk

theorem regAt_of_toNat_iv {off : Offset} {k : Nat} (hk : k < 4) (h : off.toNat = 0x040 + 4 * k) :
    regAt off = .iv k := by
  rw [eq_ofNat_of_toNat h]
  exact regAt_ivOffset k hk

theorem regAt_of_toNat_msg {off : Offset} {k : Nat} (hk : k < 16) (h : off.toNat = 0x080 + 4 * k) :
    regAt off = .msg k := by
  rw [eq_ofNat_of_toNat h]
  exact regAt_msgOffset k hk

/-- MSG lies at 0x080 .. 0x0BF only. -/
theorem isMsg_regAt {off : Offset} (h : (regAt off).isMsg = true) : 0x080 ≤ off.toNat ∧ off.toNat < 0x0C0 := by
  by_contra hn
  have hout : ¬ (msgBase ≤ off.toNat ∧ off.toNat < msgBase + Config.maxLen) := hn
  unfold regAt offsetMap at h
  rw [if_neg hout] at h
  split_ifs at h <;> simp [Reg.isMsg] at h

/-! ### The lanes of the operand registers (20_memory.md R74) -/

theorem laneWord_keyOffset (m : Memory) (k : Nat) :
    laneWord m (keyOffset k)
      = keyByte m (4 * k + 3) ++ keyByte m (4 * k + 2) ++ keyByte m (4 * k + 1) ++ keyByte m (4 * k) := rfl

theorem laneWord_ivOffset (m : Memory) (k : Nat) :
    laneWord m (ivOffset k)
      = ivByte m (4 * k + 3) ++ ivByte m (4 * k + 2) ++ ivByte m (4 * k + 1) ++ ivByte m (4 * k) := rfl

theorem laneWord_msgOffset (m : Memory) (k : Nat) :
    laneWord m (msgOffset k)
      = msgByte m (4 * k + 3) ++ msgByte m (4 * k + 2) ++ msgByte m (4 * k + 1) ++ msgByte m (4 * k) := rfl

/-! ### The step at a legal access -/

theorem legal_readAccess {off : Offset} (h : off.toNat % 4 = 0) : (readAccess off).legal = true := by
  simp [Access.legal, readAccess, h]

theorem legal_writeAccess {off : Offset} (h : off.toNat % 4 = 0) (v : Word) : (writeAccess off v).legal = true := by
  simp [Access.legal, writeAccess, h]

theorem step_access {s : State} {a : Access} {gap : Option Nat} {rest : List Input}
    (hin : s.inputs = .access a gap :: rest) : step s = serve a (s.take rest gap) := by
  simp [step, hin]

/-- A legal write is Write(off, v) with an OK answer (20_memory.md R76). -/
theorem step_write {s : State} {off : Offset} {v : Word} {gap : Option Nat} {rest : List Input}
    (hal : off.toNat % 4 = 0) (hin : s.inputs = wr off v gap :: rest) :
    step s = hostWrite off v (s.answered rest gap .writeOk) := by
  rw [step_access hin, serve, legal_writeAccess hal v]
  rfl

/-- A legal read answers the register's value and nothing else changes, MSG while BUSY = 1 apart (20_memory.md R75). -/
theorem step_read {s : State} {off : Offset} {gap : Option Nat} {rest : List Input}
    (hal : off.toNat % 4 = 0) (hin : s.inputs = rd off gap :: rest)
    (hmsg : s.busy = true → ¬ (regAt off).isMsg = true) :
    step s = .next (advanceBy gap (s.answered rest gap (.readOk (regValue s (regAt off))))) := by
  have hfree : ¬ ((s.take rest gap).busy && (regAt off).isMsg) = true := by
    simpa using hmsg
  have hvalue : regValue (s.take rest gap) (regAt off) = regValue s (regAt off) := by
    cases regAt off <;> rfl
  rw [step_access hin, serve, legal_readAccess hal]
  change Host.Outcome.next (advance (hostRead off (s.take rest gap))) = _
  rw [hostRead, if_neg hfree, hvalue]
  rfl

end Sys2Proof.Machine

open Sys2Proof Sys2Proof.Machine

/-- Settles O32: the answer is `regValue` at the offset's register, which each clause reads off the offset map. -/
theorem readAnswersRegisterValue : Obligations.ReadAnswersRegisterValue := by
  intro s off gap rest hal hin hmsg
  refine ⟨regValue s (regAt off), step_read hal hin fun hb hm => hmsg hb (isMsg_regAt hm),
    ?cmd, ?status, ?ctrl, ?len, ?loaded, ?key, ?iv, ?msg, ?reserved⟩
  case cmd => rintro rfl; rfl
  case status => rintro rfl; rfl
  case ctrl => rintro rfl; rfl
  case len => rintro rfl; rfl
  case loaded => rintro rfl; rfl
  case key =>
    intro k hk hoff
    rw [regAt_of_toNat_key hk hoff]
    exact laneWord_keyOffset s.mem k
  case iv =>
    intro k hk hoff
    rw [regAt_of_toNat_iv hk hoff]
    exact laneWord_ivOffset s.mem k
  case msg =>
    intro k hk hoff
    rw [regAt_of_toNat_msg hk hoff]
    exact laneWord_msgOffset s.mem k
  case reserved =>
    intro hoff
    rw [regAt_reserved hoff]
    rfl

/-- Settles O33: at a reserved offset the register is `reserved`, whose value is 0 and whose write does nothing. -/
theorem reservedOffsetsReadZeroIgnoreWrites : Obligations.ReservedOffsetsReadZeroIgnoreWrites := by
  intro s off v gap rest hal hoff
  have hreg := regAt_reserved hoff
  refine ⟨fun hin => ?read, fun hin => ?write⟩
  case read =>
    rw [step_read hal hin fun _ => by simp [hreg, Reg.isMsg], hreg]
    rfl
  case write =>
    rw [step_write hal hin, hostWrite, hreg]
    rfl

end

section
/-! SUPPORT. The decoder, said once: which words it rejects, which command it makes of the others, and what that command
resolves to, as functions of the OP and KSIZE fields (30_encoding.md R100 - R106). -/

namespace Sys2Proof

/-! ### The decoder on a word's fields -/

theorem decode_reserved {v : Word} (h : Machine.ReservedWord v) : decode v = .reject .badCmd := by
  obtain hrsv | hop | hop := h
  · exact if_pos hrsv
  · have hop : opField v = 0#4 := hop
    simp [decode, hop]
  · have hne (c : BitVec 4) (hc : c.toNat < 0xB) : opField v ≠ c := by
      rintro rfl
      exact absurd hop (by simpa [opField] using hc)
    simp [decode, hne]

/-- A word that is not reserved decodes to the command of its OP's row with its KSIZE field (30_encoding.md R101). -/
theorem decode_of_not_reserved {v : Word} (h : ¬ Machine.ReservedWord v) :
    ∃ i, decode v = .command i ∧ i.op.code = opField v ∧ i.ksize = ksizeField v := by
  have hrsv : rsvField v = 0#26 := by
    by_contra hrsv
    exact h (.inl hrsv)
  have hzero : opField v ≠ 0#4 := fun hop => h (.inr (.inl hop))
  have hlt : (opField v).toNat < 0xB := Nat.not_le.mp fun hop => h (.inr (.inr hop))
  rw [decode, if_neg (not_not_intro hrsv)]
  split_ifs with h1 h2 h3 h4 h5 h6 h7 h8 h9 hA
  case neg => bv_omega
  all_goals exact ⟨_, rfl, Eq.symm ‹_›, rfl⟩

theorem decodeCommand_reserved {v : Word} (h : Machine.ReservedWord v) : decodeCommand v = .reject .badCmd := by
  rw [decodeCommand, decode_reserved h]

/-- A word that is not reserved is resolved as the command of its fields. -/
theorem decodeCommand_of_not_reserved {v : Word} (h : ¬ Machine.ReservedWord v) :
    ∃ i : Instr, decodeCommand v = i.resolve ∧ i.op.code = opField v ∧ i.ksize = ksizeField v := by
  obtain ⟨i, hi, hop, hks⟩ := decode_of_not_reserved h
  exact ⟨i, by rw [decodeCommand, hi], hop, hks⟩

/-! ### Mode, direction and strength as functions of the fields -/

theorem Op.one_le_code (op : Op) : 1 ≤ op.code.toNat := by cases op <;> decide

theorem Op.mode_eq_of_code (op : Op) :
    op.mode = if op.code.toNat ≤ 4 then (if op.code.toNat ≤ 2 then .ecb else .cbc) else .blk := by
  cases op <;> rfl

theorem Op.dir_eq_of_code (op : Op) :
    op.dir = if op.code.toNat ≤ 4 then (if op.code.toNat = 1 ∨ op.code.toNat = 3 then .enc else .dec)
      else (if op.code.toNat ≤ 7 then .enc else .dec) := by
  cases op <;> rfl

/-- The (Nk, Nr) table of R106, which a mode command indexes by KSIZE and a single-block command by (OP - 5) mod 3. -/
def nkNrTable (n : Nat) : Nat × Nat := [(4, 10), (6, 12), (8, 14)].getD n (0, 0)

theorem nk_nr_of_strengthOf {ksize : BitVec 2} {k : Strength} (h : strengthOf ksize = some k) :
    (k.nk, k.nr) = nkNrTable ksize.toNat := by
  revert ksize
  cases k <;> decide

theorem exists_strengthOf {ksize : BitVec 2} (h : ksize ≠ 0b11#2) : ∃ k, strengthOf ksize = some k := by
  rw [← Option.isSome_iff_exists]
  revert ksize
  decide

/-! ### The resolution of a command -/

/-- OP 0x1 to 0x4 are the mode commands. -/
theorem Instr.resolve_of_code_le {i : Instr} (h : i.op.code.toNat ≤ 4) : i.resolve = resolveMode i.op i.ksize := by
  cases i
  case ecbEnc | ecbDec | cbcEnc | cbcDec => rfl
  all_goals exact absurd h (by simp [Instr.op, Op.code])

/-- OP 0x5 to 0xA are the single-block commands, whose strength the OP fixes (30_encoding.md R103). -/
theorem Instr.resolve_of_lt_code {i : Instr} (h : 4 < i.op.code.toNat) :
    ∃ k, i.resolve = resolveBlk i.op k ∧ (k.nk, k.nr) = nkNrTable ((i.op.code.toNat - 5) % 3) := by
  cases i
  case ecbEnc | ecbDec | cbcEnc | cbcDec => exact absurd h (by simp [Instr.op, Op.code])
  all_goals exact ⟨_, rfl, by simp [Instr.op, Op.code, Strength.nk, Strength.nr, nkNrTable]⟩

theorem resolveMode_bad (op : Op) : resolveMode op 0b11#2 = .reject .badKsize := rfl

theorem resolveMode_good (op : Op) {ksize : BitVec 2} (h : ksize ≠ 0b11#2) :
    ∃ k, resolveMode op ksize = .command ⟨op, k, Config.maxLen⟩
      ∧ (k.nk, k.nr) = nkNrTable ksize.toNat := by
  obtain ⟨k, hk⟩ := exists_strengthOf h
  exact ⟨k, by rw [resolveMode, hk], nk_nr_of_strengthOf hk⟩

end Sys2Proof

open Sys2Proof Sys2Proof.Machine

/-- Settles O2: a word that is not reserved is resolved as the command of its fields, whose mode, direction and strength
are then read off OP and KSIZE, for a mode command and for a single-block command. -/
theorem decodeOfEveryCommandWord : Obligations.DecodeOfEveryCommandWord := by
  intro v
  refine ⟨decodeCommand_reserved, fun hres hbad => ?badKsize, fun hres hgood => ?command⟩
  case badKsize =>
    obtain ⟨i, hv, hop, hks⟩ := decodeCommand_of_not_reserved hres
    obtain ⟨-, hle, hksize⟩ := hbad
    rw [hv, Instr.resolve_of_code_le (by rwa [hop]), hks, ksizeField, hksize, resolveMode_bad]
  case command =>
    obtain ⟨i, hv, hop, hks⟩ := decodeCommand_of_not_reserved hres
    rw [opField] at hop
    rw [ksizeField] at hks
    rw [hv, ← hop, ← hks]
    by_cases hle : i.op.code.toNat ≤ 4
    · have hksize : i.ksize ≠ 0b11#2 := fun h => hgood ⟨hop ▸ i.op.one_le_code, hop ▸ hle, hks ▸ h⟩
      obtain ⟨k, hk, htable⟩ := resolveMode_good i.op hksize
      have hmode : i.op.mode = if i.op.code.toNat ≤ 2 then .ecb else .cbc := by rw [Op.mode_eq_of_code, if_pos hle]
      have hdir : i.op.dir = if i.op.code.toNat = 1 ∨ i.op.code.toNat = 3 then .enc else .dec := by
        rw [Op.dir_eq_of_code, if_pos hle]
      refine ⟨_, (Instr.resolve_of_code_le hle).trans hk, rfl, ?_⟩
      rw [if_pos hle]
      exact ⟨hmode, hdir, htable, rfl⟩
    · obtain ⟨k, hk, htable⟩ := Instr.resolve_of_lt_code (Nat.not_le.mp hle)
      have hmode : i.op.mode = .blk := by rw [Op.mode_eq_of_code, if_neg hle]
      have hdir : i.op.dir = if i.op.code.toNat ≤ 7 then .enc else .dec := by rw [Op.dir_eq_of_code, if_neg hle]
      refine ⟨_, hk, rfl, ?_⟩
      rw [if_neg hle]
      exact ⟨hmode, hdir, htable, rfl⟩

end

section
/-! SUPPORT. The field laws of `gmul` and `ginv` and the S-box tables, said once (40_gf_sbox.md R131 - R140). A map that
respects exclusive-or and `xtime` passes through `gmul` (`XtimeLinear.map_gmul`); commutativity and associativity are
two uses of that fact. -/

namespace Sys2Proof.Machine

/-! ### Maps that respect exclusive-or and xtime -/

/-- `f` is additive and commutes with multiplication by {02}. -/
structure XtimeLinear (f : Byte → Byte) : Prop where
  map_xor (a b : Byte) : f (a ^^^ b) = f a ^^^ f b
  map_xtime (a : Byte) : f (xtime a) = xtime (f a)

theorem XtimeLinear.map_zero {f : Byte → Byte} (hf : XtimeLinear f) : f 0#8 = 0#8 := by
  have h := hf.map_xor 0#8 0#8
  rwa [BitVec.xor_self, BitVec.xor_self] at h

theorem XtimeLinear.map_xtimePow {f : Byte → Byte} (hf : XtimeLinear f) (n : Nat) (a : Byte) :
    f (xtimePow n a) = xtimePow n (f a) := by
  induction n with
  | zero => rfl
  | succ n ih => rw [xtimePow, hf.map_xtime, ih, xtimePow]

/-- The shift is additive, and the reduction constant cancels when both operands have bit 7. -/
theorem xtime_xor (a b : Byte) : xtime (a ^^^ b) = xtime a ^^^ xtime b := by
  simp only [xtime, BitVec.getLsbD_xor, BitVec.shiftLeft_xor_distrib]
  cases a.getLsbD 7 <;> cases b.getLsbD 7
  case false.false => rfl
  case false.true => exact BitVec.xor_assoc _ _ _
  case true.false =>
    change a <<< 1 ^^^ b <<< 1 ^^^ 0x1B#8 = a <<< 1 ^^^ 0x1B#8 ^^^ b <<< 1
    ac_rfl
  case true.true =>
    calc a <<< 1 ^^^ b <<< 1
      _ = a <<< 1 ^^^ b <<< 1 ^^^ (0x1B#8 ^^^ 0x1B#8) := by rw [BitVec.xor_self, BitVec.xor_zero]
      _ = (a <<< 1 ^^^ 0x1B#8) ^^^ (b <<< 1 ^^^ 0x1B#8) := by ac_rfl

theorem xtimeLinear_xtime : XtimeLinear xtime := ⟨xtime_xor, fun _ => rfl⟩

theorem xtimePow_xor (n : Nat) (a b : Byte) : xtimePow n (a ^^^ b) = xtimePow n a ^^^ xtimePow n b := by
  induction n with
  | zero => rfl
  | succ n ih => rw [xtimePow, ih, xtime_xor, xtimePow, xtimePow]

/-! ### gmul as a sum over the bits of its right operand -/

/-- The part of `gmul a b` that the lowest `n` bits of `b` give. -/
def partialProduct : Nat → Byte → Byte → Byte
  | 0, _, _ => 0#8
  | n + 1, a, b => partialProduct n a b ^^^ if b.getLsbD n then xtimePow n a else 0#8

theorem gmul_eq_partialProduct (a b : Byte) : gmul a b = partialProduct 8 a b := by
  have h (n : Nat) : (List.range n).foldl (fun p i => if b.getLsbD i then p ^^^ xtimePow i a else p) 0#8
      = partialProduct n a b := by
    induction n with
    | zero => rfl
    | succ n ih =>
      rw [List.range_succ, List.foldl_append, ih, partialProduct]
      cases hb : b.getLsbD n <;> simp [hb]
  exact h 8

theorem partialProduct_xor_left (n : Nat) (a b c : Byte) :
    partialProduct n (a ^^^ b) c = partialProduct n a c ^^^ partialProduct n b c := by
  induction n with
  | zero => exact BitVec.xor_self.symm
  | succ n ih =>
    simp only [partialProduct, ih]
    split
    · rw [xtimePow_xor]
      ac_rfl
    · simp only [BitVec.xor_zero]

theorem XtimeLinear.map_partialProduct {f : Byte → Byte} (hf : XtimeLinear f) (n : Nat) (a b : Byte) :
    f (partialProduct n a b) = partialProduct n (f a) b := by
  induction n with
  | zero => exact hf.map_zero
  | succ n ih => rw [partialProduct, hf.map_xor, ih, apply_ite f, hf.map_xtimePow, hf.map_zero, partialProduct]

/-- What respects exclusive-or and `xtime` respects multiplication by any byte. -/
theorem XtimeLinear.map_gmul {f : Byte → Byte} (hf : XtimeLinear f) (a b : Byte) : f (gmul a b) = gmul (f a) b := by
  rw [gmul_eq_partialProduct, gmul_eq_partialProduct, hf.map_partialProduct]

/-! ### The field laws (R134) -/

theorem gmul_xor_left (a b c : Byte) : gmul (a ^^^ b) c = gmul a c ^^^ gmul b c := by
  simp only [gmul_eq_partialProduct, partialProduct_xor_left]

theorem xtimeLinear_gmul_left (b : Byte) : XtimeLinear (gmul · b) :=
  ⟨fun a c => gmul_xor_left a c b, fun a => (xtimeLinear_xtime.map_gmul a b).symm⟩

@[simp] theorem zero_gmul (b : Byte) : gmul 0#8 b = 0#8 := (xtimeLinear_gmul_left b).map_zero

@[simp] theorem one_gmul (b : Byte) : gmul 1#8 b = b := by
  revert b
  decide +kernel

/-- Multiplication by `b` on the right is linear, so it is fixed by its value at 1: it is multiplication of `b`. -/
theorem gmul_comm (a b : Byte) : gmul a b = gmul b a := by
  have h : gmul (gmul 1#8 a) b = gmul (gmul 1#8 b) a := (xtimeLinear_gmul_left b).map_gmul 1#8 a
  rwa [one_gmul, one_gmul] at h

@[simp] theorem gmul_one (a : Byte) : gmul a 1#8 = a := by rw [gmul_comm, one_gmul]

theorem gmul_assoc (a b c : Byte) : gmul (gmul a b) c = gmul a (gmul b c) := by
  have h : gmul (gmul b a) c = gmul (gmul b c) a := (xtimeLinear_gmul_left c).map_gmul b a
  rwa [gmul_comm b a, gmul_comm _ a] at h

/-! ### The inverse (R136) -/

/-- A byte has at most one inverse. -/
theorem gmul_eq_one_unique {b y z : Byte} (hy : gmul b y = 1#8) (hz : gmul b z = 1#8) : y = z :=
  calc
    y = gmul (gmul b z) y := by rw [hz, one_gmul]
    _ = gmul (gmul b y) z := by rw [gmul_assoc, gmul_comm z, ← gmul_assoc]
    _ = z := by rw [hy, one_gmul]

/-- The search of `ginv` runs over every byte. -/
theorem mem_allBytes (y : Byte) : y ∈ (List.range 256).map (BitVec.ofNat 8) :=
  List.mem_map.mpr ⟨y.toNat, List.mem_range.mpr y.isLt, BitVec.eq_of_toNat_eq (by simp)⟩

theorem ginv_eq_of_gmul_eq_one {b y : Byte} (h : gmul b y = 1#8) : ginv b = y := by
  unfold ginv
  cases hfind : ((List.range 256).map (BitVec.ofNat 8)).find? (fun y => gmul b y == 1#8) with
  | none => exact absurd h (by simpa using List.find?_eq_none.mp hfind y (mem_allBytes y))
  | some z => exact gmul_eq_one_unique (by simpa using List.find?_some hfind) h

@[simp] theorem ginv_zero : ginv 0#8 = 0#8 := by
  have hnone : ((List.range 256).map (BitVec.ofNat 8)).find? (fun y => gmul 0#8 y == 1#8) = none :=
    List.find?_eq_none.mpr fun y _ => by simp
  rw [ginv, hnone, Option.getD_none]

/-! ### The tables (R137 - R139) -/

/-- R138's table, checked entry by entry without the search of `ginv`: undoing the affine map leaves an inverse. -/
theorem gmul_affineInv_sbox : ∀ b : Byte, b ≠ 0#8 → gmul b (affineInv (sbox b)) = 1#8 := by decide +kernel

/-- R137: the two affine maps undo each other. -/
theorem affine_affineInv : ∀ y : Byte, affine (affineInv y) = y := by decide +kernel

theorem affineInv_affine : ∀ x : Byte, affineInv (affine x) = x := by decide +kernel

/-- R140, from the tables of R138 and R139. -/
theorem invSbox_sbox : ∀ b : Byte, invSbox (sbox b) = b := by decide +kernel

theorem sbox_invSbox : ∀ y : Byte, sbox (invSbox y) = y := by decide +kernel

theorem sbox_eq_iff {b y : Byte} : sbox b = y ↔ invSbox y = b :=
  ⟨fun h => h ▸ invSbox_sbox b, fun h => h ▸ sbox_invSbox y⟩

theorem gmul_ginv {b : Byte} (h : b ≠ 0#8) : gmul b (ginv b) = 1#8 := by
  have hinv := gmul_affineInv_sbox b h
  rwa [ginv_eq_of_gmul_eq_one hinv]

theorem ginv_ginv (b : Byte) : ginv (ginv b) = b := by
  by_cases h : b = 0#8
  · rw [h, ginv_zero, ginv_zero]
  · exact ginv_eq_of_gmul_eq_one (by rw [gmul_comm, gmul_ginv h])

/-- R138: SBox is the affine map of the inverse. -/
theorem sbox_eq_affine_ginv (b : Byte) : sbox b = affine (ginv b) := by
  by_cases h : b = 0#8
  · rw [h, ginv_zero]
    decide
  · rw [ginv_eq_of_gmul_eq_one (gmul_affineInv_sbox b h), affine_affineInv]

/-- R139: InvSBox is the inverse of the inverse affine map. -/
theorem invSbox_eq_ginv_affineInv (y : Byte) : invSbox y = ginv (affineInv y) := by
  have hy : y = affine (ginv (invSbox y)) := by rw [← sbox_eq_affine_ginv, sbox_invSbox]
  rw [hy, affineInv_affine, ginv_ginv, ← hy]

end Sys2Proof.Machine

open Sys2Proof Sys2Proof.Machine

/-- Settles O5: `gmul` has unique inverses (by its field laws), so `ginv` is what the tables give once the affine map is
undone. -/
theorem substitutionIsAffineOfInverse : Obligations.SubstitutionIsAffineOfInverse := by
  intro b y
  refine ⟨fun h => ?inverse, gmul_ginv, ginv_zero, ?zero, invSbox_eq_ginv_affineInv y, sbox_eq_iff⟩
  case inverse =>
    have hinv : ginv b = y := ginv_eq_of_gmul_eq_one h
    have hsbox : sbox b = affine y := by rw [sbox_eq_affine_ginv, hinv]
    exact ⟨hinv, hsbox, sbox_eq_iff.mp hsbox⟩
  case zero => rw [sbox_eq_affine_ginv, ginv_zero]

end

section
/-! SUPPORT. The finished key schedule, word by word (41_key_schedule.md R181 - R184): a word that a phase has computed
meets the phase's equation in the schedule that expansion ends with, because no later phase writes at or below it. -/

namespace Sys2Proof.Machine

theorem Strength.nk_le_words (k : Strength) : k.nk ≤ k.words := by cases k <;> decide

/-- A schedule of every strength fits the storage W[0..59] (R180). -/
theorem Strength.words_le (k : Strength) : k.words ≤ 60 := by cases k <;> decide

/-- R78: the bytes of a key word, the first one most significant. -/
theorem keyWord_eq_keyByte (m : Memory) (i : Nat) :
    keyWord m i = keyByte m (4 * i) ++ keyByte m (4 * i + 1) ++ keyByte m (4 * i + 2) ++ keyByte m (4 * i + 3) := rfl

/-- R182: the round constant is in the most significant byte alone. -/
theorem rcon_eq_append (j : Nat) : rcon j = xtimePow (j - 1) 1#8 ++ 0#24 := by
  have hpack : ∀ b : Byte, packWord ⟨b, 0#8, 0#8, 0#8⟩ = b ++ 0#24 := by decide
  exact hpack (rc j)

/-- Every word that expansion computes meets R183's equation in the finished schedule. -/
theorem scheduleWord_expandFrom {k : Strength} {n i j : Nat} (w : Schedule) (hi : k.nk ≤ i) (hn : i + n ≤ 60)
    (hij : i ≤ j) (hj : j < i + n) :
    scheduleWord (expandFrom k n i w) j = expandWord k (expandFrom k n i w) j := by
  induction n generalizing i w with
  | zero => omega
  | succ n ih =>
    obtain rfl | hlt := Nat.eq_or_lt_of_le hij
    case inl =>
      have hbelow : ∀ l < i, scheduleWord w l = scheduleWord (expandFrom k (n + 1) i w) l :=
        fun l hl => (scheduleWord_expandFrom_below k (n + 1) i w hn hl).symm
      calc
        scheduleWord (expandFrom k (n + 1) i w) i = scheduleWord (expandStep k i w) i :=
          scheduleWord_expandFrom_below k n (i + 1) _ (by omega) (Nat.lt_succ_self i)
        _ = expandWord k w i := by rw [expandStep, scheduleWord_set _ _ _ _ (by omega), if_pos rfl]
        _ = expandWord k (expandFrom k (n + 1) i w) i := expandWord_congr k hi hbelow
    case inr => exact ih (expandStep k i w) (by omega) (by omega) hlt (by omega)

/-- R181: the first Nk words of the finished schedule are the key's. -/
theorem scheduleWord_keyExpansion_of_lt {k : Strength} {i : Nat} (key : Nat → Word) (w : Schedule) (hi : i < k.nk) :
    scheduleWord (keyExpansion k key w) i = key i := by
  have hnk := Strength.nk_le_words k
  have hwords := Strength.words_le k
  rw [keyExpansion, scheduleWord_expandFrom_below _ _ _ _ (by omega) hi, scheduleWord_copyWords _ _ _ (by omega),
    if_pos hi]

/-- R183: every later word of the finished schedule is the expansion step of the words before it. -/
theorem scheduleWord_keyExpansion_of_le {k : Strength} {i : Nat} (key : Nat → Word) (w : Schedule) (hi : k.nk ≤ i)
    (hlt : i < k.words) : scheduleWord (keyExpansion k key w) i = expandWord k (keyExpansion k key w) i := by
  have hwords := Strength.words_le k
  exact scheduleWord_expandFrom _ (Nat.le_refl _) (by omega) hi (by omega)

end Sys2Proof.Machine

open Sys2Proof Sys2Proof.Machine

/-- Settles O7: the key's words stay where they are copied, and a later word still meets its phase's equation at the
end, as no phase after it writes a word it was computed from. -/
theorem keyScheduleRecurrence : Obligations.KeyScheduleRecurrence := by
  intro k m w0
  refine ⟨fun i hi => ?key, fun i hi hlt => ?expanded⟩
  case key => rw [scheduleWord_keyExpansion_of_lt _ _ hi, keyWord_eq_keyByte]
  case expanded => rw [← rcon_eq_append]; exact scheduleWord_keyExpansion_of_le _ _ hi hlt

end

section
/-! SUPPORT. The inverse round transforms undo the forward ones both ways (40_gf_sbox.md R141 - R147), and so a stage of
the inverse cipher undoes a stage of the forward one (42_block_cipher.md R205). The column transforms are circulant
matrices, whose product is again circulant: the two undo each other because the product of their first rows is the
identity's. -/

namespace Sys2Proof.Machine

/-! ### Circulant columns (R145, R146) -/

theorem gmul_xor_right (a b c : Byte) : gmul a (b ^^^ c) = gmul a b ^^^ gmul a c := by
  rw [gmul_comm, gmul_xor_left, gmul_comm b, gmul_comm c]

@[simp] theorem gmul_zero (a : Byte) : gmul a 0#8 = 0#8 := by rw [gmul_comm, zero_gmul]

/-- The column `a` times the circulant matrix with first row `k`: each row is the one above it turned right by one. -/
def circulant (k a : Column) : Column :=
  ⟨gmul a.a0 k.a0 ^^^ gmul a.a1 k.a1 ^^^ gmul a.a2 k.a2 ^^^ gmul a.a3 k.a3,
   gmul a.a0 k.a3 ^^^ gmul a.a1 k.a0 ^^^ gmul a.a2 k.a1 ^^^ gmul a.a3 k.a2,
   gmul a.a0 k.a2 ^^^ gmul a.a1 k.a3 ^^^ gmul a.a2 k.a0 ^^^ gmul a.a3 k.a1,
   gmul a.a0 k.a1 ^^^ gmul a.a1 k.a2 ^^^ gmul a.a2 k.a3 ^^^ gmul a.a3 k.a0⟩

/-- The first row of a product of circulant matrices: the cyclic convolution of their first rows. -/
def circulantRow (k l : Column) : Column :=
  ⟨gmul l.a0 k.a0 ^^^ gmul l.a3 k.a1 ^^^ gmul l.a2 k.a2 ^^^ gmul l.a1 k.a3,
   gmul l.a1 k.a0 ^^^ gmul l.a0 k.a1 ^^^ gmul l.a3 k.a2 ^^^ gmul l.a2 k.a3,
   gmul l.a2 k.a0 ^^^ gmul l.a1 k.a1 ^^^ gmul l.a0 k.a2 ^^^ gmul l.a3 k.a3,
   gmul l.a3 k.a0 ^^^ gmul l.a2 k.a1 ^^^ gmul l.a1 k.a2 ^^^ gmul l.a0 k.a3⟩

theorem circulant_circulant (k l a : Column) : circulant k (circulant l a) = circulant (circulantRow k l) a := by
  simp only [circulant, circulantRow, gmul_xor_left, gmul_xor_right, gmul_assoc, Column.mk.injEq]
  refine ⟨?_, ?_, ?_, ?_⟩ <;> ac_rfl

/-- First row of the identity matrix. -/
def identityRow : Column := ⟨1#8, 0#8, 0#8, 0#8⟩

/-- First row of MixColumns (R145). -/
def mixRow : Column := ⟨2#8, 3#8, 1#8, 1#8⟩

/-- First row of InvMixColumns (R146). -/
def invMixRow : Column := ⟨0x0E#8, 0x0B#8, 0x0D#8, 0x09#8⟩

theorem circulant_identityRow (a : Column) : circulant identityRow a = a := by
  simp [circulant, identityRow]

theorem mixColumn_eq_circulant (a : Column) : mixColumn a = circulant mixRow a := by
  simp only [mixColumn, circulant, mixRow, gmul_one]

theorem invMixColumn_eq_circulant (a : Column) : invMixColumn a = circulant invMixRow a := rfl

theorem circulantRow_invMixRow_mixRow : circulantRow invMixRow mixRow = identityRow := by decide

theorem circulantRow_mixRow_invMixRow : circulantRow mixRow invMixRow = identityRow := by decide

theorem invMixColumn_mixColumn (a : Column) : invMixColumn (mixColumn a) = a := by
  rw [mixColumn_eq_circulant, invMixColumn_eq_circulant, circulant_circulant, circulantRow_invMixRow_mixRow,
    circulant_identityRow]

theorem mixColumn_invMixColumn (a : Column) : mixColumn (invMixColumn a) = a := by
  rw [mixColumn_eq_circulant, invMixColumn_eq_circulant, circulant_circulant, circulantRow_mixRow_invMixRow,
    circulant_identityRow]

/-! ### The round transforms on a block (R141 - R147) -/

/-- A byte function undone byte by byte is undone on a column. -/
theorem Column.map_leftInverse {f g : Byte → Byte} (h : Function.LeftInverse g f) :
    Function.LeftInverse (Column.map g) (Column.map f) := fun a => by
  simp only [Column.map, h _]

/-- A column function undone column by column is undone on a block. -/
theorem Block.map_leftInverse {f g : Column → Column} (h : Function.LeftInverse g f) :
    Function.LeftInverse (Block.map g) (Block.map f) := fun s => by
  simp only [Block.map, h _]

@[simp] theorem invSubBytes_subBytes (s : Block) : invSubBytes (subBytes s) = s :=
  Block.map_leftInverse (Column.map_leftInverse invSbox_sbox) s

@[simp] theorem subBytes_invSubBytes (s : Block) : subBytes (invSubBytes s) = s :=
  Block.map_leftInverse (Column.map_leftInverse sbox_invSbox) s

@[simp] theorem invShiftRows_shiftRows (s : Block) : invShiftRows (shiftRows s) = s := rfl

@[simp] theorem shiftRows_invShiftRows (s : Block) : shiftRows (invShiftRows s) = s := rfl

@[simp] theorem invMixColumns_mixColumns (s : Block) : invMixColumns (mixColumns s) = s :=
  Block.map_leftInverse invMixColumn_mixColumn s

@[simp] theorem mixColumns_invMixColumns (s : Block) : mixColumns (invMixColumns s) = s :=
  Block.map_leftInverse mixColumn_invMixColumn s

theorem Column.xor_xor_cancel (a b : Column) : (a.xor b).xor b = a := by
  simp only [Column.xor, BitVec.xor_assoc, BitVec.xor_self, BitVec.xor_zero]

@[simp] theorem addRoundKey_addRoundKey (w : Schedule) (r : Nat) (s : Block) :
    addRoundKey w r (addRoundKey w r s) = s := by
  simp only [addRoundKey, Block.xor, Column.xor_xor_cancel]

/-! ### A stage of one cipher against a stage of the other (42_block_cipher.md R200, R203)

A forward round begins with SubBytes and ShiftRows, and an inverse round begins by undoing the pair with which the next
forward round begins. So each lemma has one such pair around the round that is undone, and leaves the same pair around
the next one. -/

theorem invRound_fullRound (w : Schedule) (r : Nat) (s : Block) :
    invRound w r (shiftRows (subBytes (fullRound w r s))) = shiftRows (subBytes s) := by
  simp only [invRound, fullRound, invShiftRows_shiftRows, invSubBytes_subBytes, addRoundKey_addRoundKey,
    invMixColumns_mixColumns]

theorem fullRound_invRound (w : Schedule) (r : Nat) (s : Block) :
    fullRound w r (invSubBytes (invShiftRows (invRound w r s))) = invSubBytes (invShiftRows s) := by
  simp only [invRound, fullRound, subBytes_invSubBytes, shiftRows_invShiftRows, mixColumns_invMixColumns,
    addRoundKey_addRoundKey]

theorem invRounds_fullRounds (w : Schedule) (n : Nat) (s : Block) :
    invRounds w n (shiftRows (subBytes (fullRounds w n s))) = shiftRows (subBytes s) := by
  induction n with
  | zero => rfl
  | succ n ih => rw [fullRounds, invRounds, invRound_fullRound, ih]

theorem fullRounds_invRounds (w : Schedule) (n : Nat) (s : Block) :
    fullRounds w n (invSubBytes (invShiftRows (invRounds w n s))) = invSubBytes (invShiftRows s) := by
  induction n generalizing s with
  | zero => rfl
  | succ n ih => rw [fullRounds, invRounds, ih, fullRound_invRound]

theorem invCipher_cipher (w : Schedule) (nr : Nat) (b : Block) : invCipher w nr (cipher w nr b) = b := by
  rw [invCipher, cipher, finalRound, addRoundKey_addRoundKey, invRounds_fullRounds, invFinalRound,
    invShiftRows_shiftRows, invSubBytes_subBytes, addRoundKey_addRoundKey]

theorem cipher_invCipher (w : Schedule) (nr : Nat) (b : Block) : cipher w nr (invCipher w nr b) = b := by
  rw [cipher, invCipher, invFinalRound, addRoundKey_addRoundKey, fullRounds_invRounds, finalRound,
    subBytes_invSubBytes, shiftRows_invShiftRows, addRoundKey_addRoundKey]

end Sys2Proof.Machine

open Sys2Proof Sys2Proof.Machine

/-- Settles O10: each round of one cipher is undone by the other's round of the same key, from the middle outwards, for
any number of rounds. -/
theorem invCipherUndoesCipher : Obligations.InvCipherUndoesCipher :=
  fun k w b => ⟨invCipher_cipher w k.nr b, cipher_invCipher w k.nr b⟩

end

section
/-! SUPPORT. What a CMD write does while no command runs, said once: the first failing check of the fixed order is the
cause of a rejection, and any other command is accepted, with DONE raised exactly when BUSY falls. What a STATUS or CTRL
write does while IDLE (60_exceptions.md R282, R283, R285; 10_state.md R35, R37). -/

namespace Sys2Proof.Machine

/-! ### The first failing check (60_exceptions.md R282) -/

theorem validate_noKey {d : Resolved} {s : State} (h : ∃ n < d.strength.nk, s.keyw.getLsbD n = false) :
    validate d s = .noKey := by
  obtain ⟨n, hn, hclear⟩ := h
  have hkey : ¬ keyLoaded s.keyw d.strength = true := fun hall => by
    simp [(keyLoaded_iff _ _).mp hall n hn] at hclear
  simp [validate, hkey]

theorem validate_noIv {d : Resolved} {s : State} (hkey : ∀ n < d.strength.nk, s.keyw.getLsbD n = true)
    (hmode : d.op.mode = .cbc) (hiv : s.ivw ≠ 0xF#4) : validate d s = .noIv := by
  simp [validate, (keyLoaded_iff _ _).mpr hkey, hmode, ivLoaded, hiv]

/-- With the operand words loaded, only LEN is left to check. -/
theorem validate_of_loaded {d : Resolved} {s : State} (hkey : ∀ n < d.strength.nk, s.keyw.getLsbD n = true)
    (hiv : d.op.mode = .cbc → s.ivw = 0xF#4) :
    validate d s = if s.len.toNat = 0 then .lenZero else if d.maxLen < s.len.toNat then .lenMax else .none := by
  have hivOk : ¬ (d.op.mode == .cbc && !ivLoaded s.ivw) = true := by
    simpa [ivLoaded_iff] using hiv
  rw [validate, (keyLoaded_iff _ _).mpr hkey, if_neg (by decide), if_neg hivOk]

/-! ### The CMD write -/

/-- A CMD write is Command(v) at the word's resolution (43_modes.md R230). -/
theorem commandWrite_eq_command (v : Word) (s : State) :
    commandWrite v s = .next (command (decodeCommand v) s) := by
  unfold commandWrite decodeCommand
  cases decode v with
  | command i => exact exec_eq_command i s
  | reject c => rfl

theorem commandWrite_reject {v : Word} {s : State} {c : Cause} (hb : s.busy = false)
    (hv : decodeCommand v = .reject c) : commandWrite v s = .next (s.rejected c) := by
  rw [commandWrite_eq_command, hv, command_reject hb]
  rfl

/-- The checks do not look at the last outcome, and a rejection writes all three of its bits. -/
theorem commandWrite_invalid {v : Word} {s : State} {d : Resolved} {c : Cause} (hb : s.busy = false)
    (hv : decodeCommand v = .command d) (hcheck : validate d s = c) (hc : c ≠ .none) :
    commandWrite v s = .next (s.rejected c) := by
  rw [commandWrite_eq_command, hv, command_invalid hb hcheck hc]
  rfl

/-! ### DONE against BUSY, and irq (60_exceptions.md R285) -/

/-- FINISH lowers BUSY and raises DONE together, and no other phase touches either. -/
theorem done_eq_not_busy_phaseStep {s : State} (h : s.done = !s.busy) : (phaseStep s).done = !(phaseStep s).busy := by
  by_cases hs : s.seq = .finish
  · rw [phaseStep_finish hs]
    rfl
  · rw [phaseStep_eq_of_ne_finish hs]
    exact h

theorem done_eq_not_busy_runPhases {s : State} (h : s.done = !s.busy) (n : Nat) :
    (runPhases n s).done = !(runPhases n s).busy := by
  induction n generalizing s with
  | zero => exact h
  | succ n ih => exact ih (done_eq_not_busy_phaseStep h)

/-- After a CMD write that is not ignored, DONE is set exactly when no command runs. -/
theorem done_command {s : State} (hb : s.busy = false) (r : Resolution) :
    (command r s).done = !(command r s).busy := by
  obtain ⟨hb', -⟩ | ⟨-, c, hc⟩ | ⟨-, d, -, -, hc⟩ := command_cases r s
  case inl => simp [hb] at hb'
  case inr.inl =>
    rw [hc]
    exact congrArg not hb.symm
  case inr.inr =>
    obtain ⟨n, hn⟩ := advance_eq_runPhases (accept d s.clearOutcome)
    rw [hc, hn]
    exact done_eq_not_busy_runPhases rfl n

theorem irqEn_command (r : Resolution) (s : State) : (command r s).irqEn = s.irqEn := by
  obtain ⟨-, hc⟩ | ⟨-, c, hc⟩ | ⟨-, d, -, -, hc⟩ := command_cases r s <;> rw [hc]
  · exact (engineKeeps_advanceBy s.quiet s).irqEn
  · rfl
  · exact (engineKeeps_advanceBy _ (accept d s.clearOutcome)).irqEn

/-- irq after a command: low while it runs, IRQEN once it has completed or was rejected. -/
theorem irq_of_exec {i : Instr} {s t : State} (hb : s.busy = false) (h : exec i s = .next t) :
    irq t = (!t.busy && s.irqEn) := by
  rw [exec_eq_command, Host.Outcome.next.injEq] at h
  rw [← h, irq, done_command hb, irqEn_command]

/-! ### STATUS and CTRL writes while IDLE -/

/-- A STATUS write while IDLE clears DONE if its bit 1 is set and changes nothing else (10_state.md R37). -/
theorem step_write_status {s : State} {v : Word} {gap : Option Nat} {rest : List Input} (hidle : Idle s)
    (hin : s.inputs = wr 0x004#12 v gap :: rest) :
    step s = .next { s.answered rest gap .writeOk with done := if v.getLsbD 1 then false else s.done } := by
  have hreg : regAt 0x004#12 = .status := rfl
  rw [step_write rfl hin, hostWrite, hreg]
  cases v.getLsbD 1 <;> exact congrArg Host.Outcome.next (advance_idle hidle.2)

/-- A CTRL write while IDLE sets IRQEN to its bit 0 and changes nothing else (10_state.md R35). -/
theorem step_write_ctrl {s : State} {v : Word} {gap : Option Nat} {rest : List Input} (hidle : Idle s)
    (hin : s.inputs = wr 0x008#12 v gap :: rest) :
    step s = .next { s.answered rest gap .writeOk with irqEn := v.getLsbD 0 } := by
  have hreg : regAt 0x008#12 = .ctrl := rfl
  rw [step_write rfl hin, hostWrite, hreg]
  exact congrArg Host.Outcome.next (advance_idle hidle.2)

end Sys2Proof.Machine

open Sys2Proof Sys2Proof.Machine

/-- Settles O22: the decoder gives BADCMD and BADKSIZE, `validate` the other four causes, each once the checks before it
have passed. -/
theorem firstFailingCheckRejects : Obligations.FirstFailingCheckRejects := by
  intro v s hb
  obtain ⟨-, hbadKsize, -⟩ := decodeOfEveryCommandWord v
  refine ⟨fun hres => commandWrite_reject hb (decodeCommand_reserved hres),
    fun hres hk => commandWrite_reject hb (hbadKsize hres hk),
    fun d hd => ⟨fun hkey => ?noKey, fun hkey => ⟨?noIv, ?len⟩⟩⟩
  case noKey => exact commandWrite_invalid hb hd (validate_noKey hkey) (by decide)
  case noIv =>
    intro hmode hiv
    exact commandWrite_invalid hb hd (validate_noIv hkey hmode hiv) (by decide)
  case len =>
    intro hiv
    have hcheck := validate_of_loaded hkey hiv
    refine ⟨fun hzero => ?lenZero, fun hmax => ?lenMax⟩
    case lenZero =>
      rw [if_pos (by rw [hzero]; rfl)] at hcheck
      exact commandWrite_invalid hb hd hcheck (by decide)
    case lenMax =>
      rw [if_neg (by omega), if_pos hmax] at hcheck
      exact commandWrite_invalid hb hd hcheck (by decide)

/-- Settles O39: after a command DONE is the negation of BUSY, so irq is IRQEN once no command runs; while IDLE a STATUS
or CTRL write changes its own bit only. -/
theorem irqFollowsDoneAndEnable : Obligations.IrqFollowsDoneAndEnable := by
  refine ⟨fun s => rfl, fun i s t hb h hrun => ?running, fun i s t hb h hend => ?ended,
    fun s v gap rest hidle hv hin => ?status, fun s v gap rest hidle hin => ?ctrl, rfl⟩
  case running => rw [irq_of_exec hb h, hrun, Bool.not_true, Bool.false_and]
  case ended => rw [irq_of_exec hb h, hend, Bool.not_false, Bool.true_and]
  case status => exact ⟨_, step_write_status hidle hin, by simp [irq, hv]⟩
  case ctrl => exact ⟨_, step_write_ctrl hidle hin, rfl⟩

end

section
/-! SUPPORT. What the host's CMD, LEN, CTRL and STATUS writes do while a command runs, said once: the engine neither reads
nor writes LEN and IRQEN, so a new value of them passes through any number of phases (70_reset_and_hazards.md R317, R318).
The register values at reset (R311). -/

namespace Sys2Proof.Machine

/-! ### LEN and IRQEN beside the engine -/

/-- The state with other values of LEN and IRQEN, the two fields a host write can set while a command runs. -/
def State.setControl (len : Word) (irqEn : Bool) (s : State) : State := { s with len := len, irqEn := irqEn }

section
variable (len : Word) (irqEn : Bool) (s : State)

@[simp] theorem State.setControl_seq : (s.setControl len irqEn).seq = s.seq := rfl
@[simp] theorem State.setControl_op : (s.setControl len irqEn).op = s.op := rfl
@[simp] theorem State.setControl_strength : (s.setControl len irqEn).strength = s.strength := rfl
@[simp] theorem State.setControl_nblk : (s.setControl len irqEn).nblk = s.nblk := rfl

theorem loadBlock_setControl (b : Nat) :
    loadBlock b (s.setControl len irqEn) = (loadBlock b s).setControl len irqEn := by
  unfold loadBlock
  rw [State.setControl_op]
  cases s.op <;> rfl

theorem sealBlock_setControl : sealBlock (s.setControl len irqEn) = (sealBlock s).setControl len irqEn := by
  unfold sealBlock
  rw [State.setControl_op]
  cases s.op <;> rfl

theorem expandPhase_setControl (i : Nat) :
    expandPhase i (s.setControl len irqEn) = (expandPhase i s).setControl len irqEn := by
  unfold expandPhase
  rw [State.setControl_strength]
  split <;> rfl

theorem enterBlock_setControl (b k : Nat) :
    enterBlock b k (s.setControl len irqEn) = (enterBlock b k s).setControl len irqEn := by
  simp only [enterBlock, State.setControl_op, State.setControl_strength, loadBlock_setControl]
  split <;> rfl

theorem endBlock_setControl (b : Nat) :
    endBlock b (s.setControl len irqEn) = (endBlock b s).setControl len irqEn := by
  simp only [endBlock, State.setControl_op, State.setControl_nblk, sealBlock_setControl]
  split <;> rfl

theorem stageStep_setControl (k : Nat) :
    stageStep k (s.setControl len irqEn) = (stageStep k s).setControl len irqEn := rfl

theorem blockPhase_setControl (b k : Nat) :
    blockPhase b k (s.setControl len irqEn) = (blockPhase b k s).setControl len irqEn := by
  simp only [blockPhase, State.setControl_op, State.setControl_strength, enterBlock_setControl, stageStep_setControl,
    endBlock_setControl]
  split <;> rfl

/-- A phase goes on alike with any LEN and IRQEN. -/
theorem phaseStep_setControl : phaseStep (s.setControl len irqEn) = (phaseStep s).setControl len irqEn := by
  have hseq := State.setControl_seq len irqEn s
  cases hs : s.seq with
  | idle => rw [phaseStep_idle (hseq.trans hs), phaseStep_idle hs]
  | expand i => rw [phaseStep_expand (hseq.trans hs), phaseStep_expand hs, expandPhase_setControl]
  | block b k => rw [phaseStep_block (hseq.trans hs), phaseStep_block hs, blockPhase_setControl]
  | finish =>
    rw [phaseStep_finish (hseq.trans hs), phaseStep_finish hs]
    rfl

theorem runPhases_setControl (n : Nat) :
    runPhases n (s.setControl len irqEn) = (runPhases n s).setControl len irqEn := by
  induction n generalizing s with
  | zero => rfl
  | succ n ih => rw [runPhases_succ, phaseStep_setControl, ih, runPhases_succ]

theorem advanceBy_setControl (gap : Option Nat) :
    advanceBy gap (s.setControl len irqEn) = (advanceBy gap s).setControl len irqEn := by
  cases gap <;> exact runPhases_setControl len irqEn s _

/-- The engine goes on as without a LEN write (70_reset_and_hazards.md R318). -/
theorem advanceBy_with_len (gap : Option Nat) :
    advanceBy gap { s with len := len } = { advanceBy gap s with len := len } :=
  calc advanceBy gap { s with len := len }
      = (advanceBy gap s).setControl len s.irqEn := advanceBy_setControl len s.irqEn s gap
    _ = { advanceBy gap s with len := len } := by rw [← (engineKeeps_advanceBy gap s).irqEn]; rfl

/-- The engine goes on as without a CTRL write (70_reset_and_hazards.md R318). -/
theorem advanceBy_with_irqEn (gap : Option Nat) :
    advanceBy gap { s with irqEn := irqEn } = { advanceBy gap s with irqEn := irqEn } :=
  calc advanceBy gap { s with irqEn := irqEn }
      = (advanceBy gap s).setControl s.len irqEn := advanceBy_setControl s.len irqEn s gap
    _ = { advanceBy gap s with irqEn := irqEn } := by rw [← (engineKeeps_advanceBy gap s).len]; rfl

end

/-! ### The writes of CMD and STATUS, and the registers at reset -/

/-- A CMD write of any word is ignored while a command runs (70_reset_and_hazards.md R317). -/
theorem hostWrite_cmd_of_busy {off : Offset} {s : State} (hreg : regAt off = .cmd) (hb : s.busy = true) (v : Word) :
    hostWrite off v s = .next (advance s) := by
  rw [hostWrite, hreg]
  change commandWrite v s = .next (advance s)
  rw [commandWrite_eq_command, command_busy hb]

/-- With DONE clear, a STATUS write has nothing to clear (10_state.md R37). -/
theorem hostWrite_status_of_not_done {off : Offset} {s : State} (hreg : regAt off = .status) (hdone : s.done = false)
    (v : Word) : hostWrite off v s = .next (advance s) := by
  have hsame : { s with done := false } = s := by rw [← hdone]
  rw [hostWrite, hreg]
  simp only [hsame, ite_self]

theorem laneWord_nil (a : Nat) : laneWord [] a = 0#32 := by
  simp only [laneWord, Memory.read_nil]
  decide

/-- Every register holds 0 at reset (70_reset_and_hazards.md R310, R311). -/
theorem regValue_reset (r : Reg) : regValue State.reset r = 0#32 := by
  cases r with
  | cmd | len | reserved => rfl
  | status | ctrl | loaded => decide
  | key k | iv k | msg k => exact laneWord_nil _

end Sys2Proof.Machine

open Sys2Proof Sys2Proof.Machine

/-- Settles O38: LEN and IRQEN pass through the engine's phases unread, and a running command has DONE clear. -/
theorem controlWritesWhileBusy : Obligations.ControlWritesWhileBusy := by
  intro s v gap rest hinv hb
  refine ⟨fun hin => ?len, fun hin => ?ctrl, fun hin => ?status⟩
  case len =>
    have hreg : regAt 0x00C#12 = .len := rfl
    rw [step_write rfl hin, hostWrite, hreg, ← advanceBy_with_len]
    rfl
  case ctrl =>
    have hreg : regAt 0x008#12 = .ctrl := rfl
    rw [step_write rfl hin, hostWrite, hreg, ← advanceBy_with_irqEn]
    rfl
  case status =>
    obtain ⟨-, -, -, -, hrunning, -⟩ := hinv
    obtain ⟨hdone, -⟩ := hrunning hb
    rw [step_write rfl hin]
    exact hostWrite_status_of_not_done rfl (s := s.answered rest gap .writeOk) hdone v

/-- Settles O37: the write reaches Command(v), which only lets the running command go on. -/
theorem commandWhileBusyIsIgnored : Obligations.CommandWhileBusyIsIgnored := by
  intro s v gap rest hb hin
  rw [step_write rfl hin]
  exact hostWrite_cmd_of_busy rfl (s := s.answered rest gap .writeOk) hb v

/-- Settles O40: the read answers the register's value, 0 at reset for each, and an IDLE engine does nothing after it. -/
theorem resetReadsZeroEverywhere : Obligations.ResetReadsZeroEverywhere := by
  refine ⟨fun off hal => ?_, rfl⟩
  have hidle : State.reset.busy = false := rfl
  have hvalue : regValue { State.reset with inputs := [rd off none] } (regAt off) = 0#32 := by
    rw [← regValue_reset (regAt off)]
    cases regAt off <;> rfl
  rw [step_read hal rfl fun hb => by simp [hidle] at hb, hvalue]
  exact congrArg Host.Outcome.next (advanceBy_idle rfl none)

end

section
/-! SUPPORT. The encoder against the decoder: an encoded word's fields are its command's, and a word is its three fields, so
each undoes the other (30_encoding.md R100, R101). -/

namespace Sys2Proof

/-- The fields of every encoded word, from the per-command laws. -/
theorem fields_encode (i : Instr) : Laws.Encoding.Statement i := by
  cases i with
  | ecbEnc ksize => exact Laws.Encoding.ecbEnc ksize
  | ecbDec ksize => exact Laws.Encoding.ecbDec ksize
  | cbcEnc ksize => exact Laws.Encoding.cbcEnc ksize
  | cbcDec ksize => exact Laws.Encoding.cbcDec ksize
  | blkEnc128 ksize => exact Laws.Encoding.blkEnc128 ksize
  | blkEnc192 ksize => exact Laws.Encoding.blkEnc192 ksize
  | blkEnc256 ksize => exact Laws.Encoding.blkEnc256 ksize
  | blkDec128 ksize => exact Laws.Encoding.blkDec128 ksize
  | blkDec192 ksize => exact Laws.Encoding.blkDec192 ksize
  | blkDec256 ksize => exact Laws.Encoding.blkDec256 ksize

theorem decode_encode (i : Instr) : decode (encode i) = .command i := by
  obtain ⟨hop, hks, hrsv⟩ := fields_encode i
  rw [decode, hop, hks, hrsv]
  cases i <;> rfl

/-- The three fields of a word, put back together, are the word. -/
theorem append_fields (v : Word) : rsvField v ++ ksizeField v ++ opField v = v :=
  calc rsvField v ++ ksizeField v ++ opField v
      = v.extractLsb' 4 28 ++ v.extractLsb' 0 4 :=
        congrArg (· ++ opField v) (BitVec.extractLsb'_append_extractLsb'_eq_extractLsb' rfl)
    _ = v.extractLsb' 0 32 := BitVec.extractLsb'_append_extractLsb'_eq_extractLsb' rfl
    _ = v := BitVec.extractLsb'_eq_self

/-- A word that decodes to a command is no reserved word, and its OP and KSIZE are the command's. -/
theorem fields_of_decode {v : Word} {i : Instr} (h : decode v = .command i) :
    rsvField v = 0#26 ∧ i.ksize = ksizeField v ∧ i.op.code = opField v := by
  have hres : ¬ Machine.ReservedWord v := fun hres => by simp [decode_reserved hres] at h
  obtain ⟨j, hj, hop, hks⟩ := decode_of_not_reserved hres
  obtain rfl : i = j := by simpa [hj] using h.symm
  exact ⟨not_not.mp fun hrsv => hres (.inl hrsv), hks, hop⟩

theorem encode_of_decode {v : Word} {i : Instr} (h : decode v = .command i) : encode i = v := by
  obtain ⟨hrsv, hks, hop⟩ := fields_of_decode h
  rw [encode, hks, hop, ← hrsv, append_fields]

end Sys2Proof

open Sys2Proof Sys2Proof.Machine

/-- Settles O1: the decoder reads an encoded word's fields back, and a decoded word's fields are all there is to it. -/
theorem decodeAndEncodeAgree : Obligations.DecodeAndEncodeAgree :=
  ⟨decode_encode, fun _ _ => encode_of_decode⟩

/-- Settles O3: the words are decoded one by one. -/
theorem sampleCommandWordsDecode : Obligations.SampleCommandWordsDecode := by
  unfold Obligations.SampleCommandWordsDecode
  decide

end

section
/-! The field laws and the round transforms, from the lemmas about each. -/

open Sys2Proof Sys2Proof.Machine

/-- Settles O4: each law is a lemma about `gmul`. -/
theorem fieldMultiplicationLaws : Obligations.FieldMultiplicationLaws := fun a b c =>
  ⟨gmul_comm a b, gmul_assoc a b c, gmul_xor_right a b c, gmul_one a, zero_gmul a⟩

/-- Settles O6: each pair of transforms undoes the other, as the lemmas about them say. -/
theorem roundTransformsInvert : Obligations.RoundTransformsInvert := fun x w r =>
  ⟨invSubBytes_subBytes x, subBytes_invSubBytes x, invShiftRows_shiftRows x, shiftRows_invShiftRows x,
    invMixColumns_mixColumns x, mixColumns_invMixColumns x, addRoundKey_addRoundKey w r x⟩

end

section
/-! SUPPORT. How far a running command is from its end: the phases left fall by one a phase (10_state.md R48), so that the
engine completes once they have gone by and not sooner (43_modes.md R247). -/

namespace Sys2Proof.Machine

/-- The stages of the present block from stage k on, k included (42_block_cipher.md R200, R203). -/
def stagesLeft (d : Dir) (nr k : Nat) : Nat :=
  match d with
  | .enc => nr + 1 - k
  | .dec => k + 1

/-- The blocks a command still has after block b (43_modes.md R245). -/
def blocksAfter (op : Op) (nblk b : Nat) : Nat := if op = .cbcDec then b else nblk - 1 - b

/-- The phases of the running command from the present one on. -/
def phasesLeft (s : State) : Nat :=
  match s.seq with
  | .idle => 0
  | .expand i => s.strength.words - i + s.nblk * (s.strength.nr + 1) + 1
  | .block b k => stagesLeft s.op.dir s.strength.nr k + blocksAfter s.op s.nblk b * (s.strength.nr + 1) + 1
  | .finish => 1

theorem stagesLeft_firstStage (d : Dir) (nr : Nat) : stagesLeft d nr (firstStage d nr) = nr + 1 := by
  cases d <;> rfl

theorem stagesLeft_lastStage (d : Dir) (nr : Nat) : stagesLeft d nr (lastStage d nr) = 1 := by
  cases d <;> simp [stagesLeft, lastStage]

theorem stagesLeft_nextStage {d : Dir} {nr k : Nat} (h : k ≤ nr) (hk : k ≠ lastStage d nr) :
    stagesLeft d nr (nextStage d k) + 1 = stagesLeft d nr k := by
  cases d <;> simp only [lastStage] at hk <;> simp only [stagesLeft, nextStage] <;> omega

theorem blocksAfter_firstBlock {op : Op} {nblk : Nat} (h : 1 ≤ nblk) :
    blocksAfter op nblk (firstBlock op nblk) + 1 = nblk := by
  simp only [blocksAfter, firstBlock]
  split <;> omega

theorem blocksAfter_finalBlock (op : Op) (nblk : Nat) : blocksAfter op nblk (finalBlock op nblk) = 0 := by
  simp only [blocksAfter, finalBlock]
  split <;> omega

theorem blocksAfter_nextBlock {op : Op} {nblk b : Nat} (h : b < nblk) (hb : b ≠ finalBlock op nblk) :
    blocksAfter op nblk (nextBlock op b) + 1 = blocksAfter op nblk b := by
  by_cases hop : op = .cbcDec
  · simp only [finalBlock, hop, if_true] at hb
    simp only [blocksAfter, nextBlock, hop, if_true]
    omega
  · simp only [finalBlock, hop, if_false] at hb
    simp only [blocksAfter, nextBlock, hop, if_false]
    omega

theorem blocksAfter_lt {op : Op} {nblk b : Nat} (h : b < nblk) : blocksAfter op nblk b < nblk := by
  simp only [blocksAfter]
  split <;> omega

theorem phasesLeft_goto_block (b k : Nat) (s : State) :
    phasesLeft (s.goto (.block b k))
      = stagesLeft s.op.dir s.strength.nr k + blocksAfter s.op s.nblk b * (s.strength.nr + 1) + 1 := rfl

theorem phasesLeft_expandPhase {s : State} {i : Nat} (hi : i < s.strength.words) (hpos : 1 ≤ s.nblk) :
    phasesLeft (expandPhase i s) = s.strength.words - (i + 1) + s.nblk * (s.strength.nr + 1) + 1 := by
  unfold expandPhase
  split
  next => rfl
  next =>
    have hblocks := blocksAfter_firstBlock (op := s.op) hpos
    calc phasesLeft ((storeWord i s).goto (.block (firstBlock s.op s.nblk) (firstStage s.op.dir s.strength.nr)))
        = stagesLeft s.op.dir s.strength.nr (firstStage s.op.dir s.strength.nr)
            + blocksAfter s.op s.nblk (firstBlock s.op s.nblk) * (s.strength.nr + 1) + 1 := rfl
      _ = (blocksAfter s.op s.nblk (firstBlock s.op s.nblk) + 1) * (s.strength.nr + 1) + 1 := by
        rw [stagesLeft_firstStage, Nat.succ_mul, Nat.add_comm (s.strength.nr + 1)]
      _ = s.strength.words - (i + 1) + s.nblk * (s.strength.nr + 1) + 1 := by rw [hblocks]; omega

theorem phasesLeft_endBlock {s : State} {b : Nat} (hb : b < s.nblk) :
    phasesLeft (endBlock b s) = blocksAfter s.op s.nblk b * (s.strength.nr + 1) + 1 := by
  unfold endBlock
  rw [sealBlock_eq]
  split
  next hfinal => rw [hfinal, blocksAfter_finalBlock, Nat.zero_mul]; rfl
  next hne =>
    rw [← blocksAfter_nextBlock hb hne, phasesLeft_goto_block]
    change stagesLeft s.op.dir s.strength.nr (firstStage s.op.dir s.strength.nr)
      + blocksAfter s.op s.nblk (nextBlock s.op b) * (s.strength.nr + 1) + 1 = _
    rw [stagesLeft_firstStage, Nat.succ_mul, Nat.add_comm (s.strength.nr + 1)]

theorem phasesLeft_blockPhase {s : State} {b k : Nat} (hb : b < s.nblk) (hk : k ≤ s.strength.nr) :
    phasesLeft (blockPhase b k s) + 1
      = stagesLeft s.op.dir s.strength.nr k + blocksAfter s.op s.nblk b * (s.strength.nr + 1) + 1 := by
  have hkeep := (engineKeeps_enterBlock b k s).trans (engineKeeps_stageStep k _)
  unfold blockPhase
  split
  next hlast =>
    rw [phasesLeft_endBlock (by rw [hkeep.nblk]; exact hb), hkeep.op, hkeep.strength, hkeep.nblk, hlast,
      stagesLeft_lastStage, Nat.add_comm 1]
  next hne =>
    rw [phasesLeft_goto_block, hkeep.op, hkeep.strength, hkeep.nblk, ← stagesLeft_nextStage hk hne]
    omega

/-- A phase of a running command is one phase less. -/
theorem phasesLeft_phaseStep {s : State} (h : EngineInRange s) (hs : s.seq ≠ .idle) :
    phasesLeft (phaseStep s) + 1 = phasesLeft s := by
  obtain ⟨hrange, hpos⟩ := h
  have hpos := hpos hs
  cases hseq : s.seq with
  | idle => exact absurd hseq hs
  | expand i =>
    simp only [phaseInRange, hseq, Bool.and_eq_true, decide_eq_true_eq] at hrange
    rw [phaseStep_expand hseq, phasesLeft_expandPhase hrange.2 hpos, phasesLeft, hseq]
    dsimp only
    omega
  | block b k =>
    simp only [phaseInRange, hseq, Bool.and_eq_true, decide_eq_true_eq] at hrange
    rw [phaseStep_block hseq, phasesLeft_blockPhase hrange.1 hrange.2, phasesLeft, hseq]
  | finish =>
    rw [phaseStep_finish hseq, phasesLeft, phasesLeft, hseq]
    rfl

theorem phasesLeft_eq_zero_iff (s : State) : phasesLeft s = 0 ↔ s.seq = .idle := by
  unfold phasesLeft
  cases s.seq <;> simp

/-- Only FINISH leads to IDLE. -/
theorem phaseStep_seq_ne_idle {s : State} (h : EngineInRange s) (hs : s.seq ≠ .idle) (hf : s.seq ≠ .finish) :
    (phaseStep s).seq ≠ .idle := by
  have hstep := phasesLeft_phaseStep h hs
  have htwo : 2 ≤ phasesLeft s := by
    unfold phasesLeft
    cases hseq : s.seq with
    | idle => exact absurd hseq hs
    | expand i => exact Nat.succ_le_succ (Nat.le_trans (Nat.mul_pos (h.2 hs) (Nat.succ_pos _)) (Nat.le_add_left _ _))
    | block b k =>
      have hk : k ≤ s.strength.nr := by
        have hrange := h.1
        simp only [phaseInRange, hseq, Bool.and_eq_true, decide_eq_true_eq] at hrange
        exact hrange.2
      have hstages : 1 ≤ stagesLeft s.op.dir s.strength.nr k := by
        cases s.op.dir <;> simp only [stagesLeft] <;> omega
      dsimp only
      omega
    | finish => exact absurd hseq hf
  rw [Ne, ← phasesLeft_eq_zero_iff]
  omega

/-- A running command completes as soon as its phases have gone by, and nothing happens after them. -/
theorem succeeded_runPhases {s : State} (h : EngineInRange s) (hs : s.seq ≠ .idle) {n : Nat} (hn : phasesLeft s ≤ n) :
    Succeeded (runPhases n s) := by
  induction n generalizing s with
  | zero => exact absurd ((phasesLeft_eq_zero_iff s).mp (by omega)) hs
  | succ n ih =>
    by_cases hf : s.seq = .finish
    · rw [runPhases_succ, phaseStep_finish hf, runPhases_idle rfl]
      exact ⟨rfl, rfl, rfl, rfl, rfl⟩
    · have hstep := phasesLeft_phaseStep h hs
      exact ih (engineInRange_phaseStep h) (phaseStep_seq_ne_idle h hs hf) (by omega)

/-- The phases past a command's end do nothing. -/
theorem runPhases_eq_of_phasesLeft_le {s : State} (h : EngineInRange s) (hs : s.seq ≠ .idle) {n : Nat}
    (hn : phasesLeft s ≤ n) : runPhases n s = runPhases (phasesLeft s) s := by
  obtain ⟨-, -, -, -, hidle⟩ := succeeded_runPhases h hs (Nat.le_refl _)
  rw [← Nat.add_sub_cancel' hn, runPhases_add, runPhases_idle hidle]

/-- No command has more phases than the fuel of a run to completion. -/
theorem phasesLeft_le_maxPhases {s : State} (hrange : phaseInRange s.strength s.nblk s.seq = true)
    (hnblk : s.seq ≠ .idle → s.nblk ≤ Config.nblkMax) : phasesLeft s ≤ Config.maxPhases := by
  have hnblkMax : Config.nblkMax = 4 := rfl
  have hmaxPhases : Config.maxPhases = 113 := rfl
  have hnr : s.strength.nr ≤ 14 ∧ s.strength.words - s.strength.nk ≤ 52 := by cases s.strength <;> decide
  unfold phasesLeft
  cases hseq : s.seq with
  | idle => exact Nat.zero_le _
  | expand i =>
    simp only [phaseInRange, hseq, Bool.and_eq_true, decide_eq_true_eq] at hrange
    have hblocks : s.nblk * (s.strength.nr + 1) ≤ 4 * 15 :=
      Nat.mul_le_mul (hnblkMax ▸ hnblk (by simp [hseq])) (by omega)
    dsimp only
    omega
  | block b k =>
    simp only [phaseInRange, hseq, Bool.and_eq_true, decide_eq_true_eq] at hrange
    have hlt := blocksAfter_lt (op := s.op) hrange.1
    have hle : s.nblk ≤ 4 := hnblkMax ▸ hnblk (by simp [hseq])
    have hblocks : blocksAfter s.op s.nblk b * (s.strength.nr + 1) ≤ 3 * 15 :=
      Nat.mul_le_mul (by omega) (by omega)
    have hstages : stagesLeft s.op.dir s.strength.nr k ≤ 15 := by
      cases s.op.dir <;> simp only [stagesLeft] <;> omega
    dsimp only
    omega
  | finish => exact Nat.le_of_ble_eq_true rfl

/-- In the invariant a command in flight has at most NBLK_MAX blocks (10_state.md R49). -/
theorem nblk_le_of_inv {s : State} (h : Inv s) (hs : s.seq ≠ .idle) : s.nblk ≤ Config.nblkMax := by
  obtain ⟨-, -, hbusy, -, hrun, -⟩ := h
  obtain ⟨-, -, -, -, -, -, -, hnblk, -⟩ := hrun (hbusy.mpr hs)
  exact hnblk

theorem phasesLeft_le_of_inv {s : State} (h : Inv s) : phasesLeft s ≤ Config.maxPhases := by
  obtain ⟨-, -, -, hrange, -⟩ := id h
  exact phasesLeft_le_maxPhases hrange (nblk_le_of_inv h)

end Sys2Proof.Machine

open Sys2Proof Sys2Proof.Machine

/-- Settles O26: with no input pending the step runs more phases than the command has left. -/
theorem runningCommandCompletes : Obligations.RunningCommandCompletes := by
  intro s hinv hb hin
  obtain ⟨-, -, hbusy, -⟩ := id hinv
  have hrange := EngineInRange.of_inv hinv
  exact ⟨runPhases Config.maxPhases s, by rw [step, hin, advanceBy_none],
    succeeded_runPhases hrange (hbusy.mp hb) (phasesLeft_le_of_inv hinv),
    (engineKeeps_runPhases _ s).registersKept, memoryKeptOutside_runPhases hrange _⟩

end

section
/-! SUPPORT. What a step can do, said once: it answers a reset edge, refuses a power event, serves a legal write, or lets
the engine go on after an input that touches the host's side alone; and what a legal write can do (20_memory.md R72 - R76,
70_reset_and_hazards.md R310, R315). -/

namespace Sys2Proof.Machine

/-! ### Writes (20_memory.md R76) -/

/-- The state after the host's write of a KEY, IV or MSG register: the four bytes, and the LOADED bit of KEY and IV. -/
def State.writeOperand (r : Reg) (v : Word) (s : State) : State :=
  match r with
  | .key k => { s with mem := s.mem.writeBytes (keyOffset k) (laneBytes v), keyw := markKey s.keyw k }
  | .iv k => { s with mem := s.mem.writeBytes (ivOffset k) (laneBytes v), ivw := markIv s.ivw k }
  | .msg k => { s with mem := s.mem.writeBytes (msgOffset k) (laneBytes v) }
  | .cmd | .status | .ctrl | .len | .loaded | .reserved => s

/-- The state with other values of the fields that STATUS, CTRL and LEN writes set. -/
def State.withControl (len : Word) (irqEn done : Bool) (s : State) : State :=
  { s with len := len, irqEn := irqEn, done := done }

/-- The four things a legal write can do: run a command word, write an operand register, fault there while BUSY = 1
(70_reset_and_hazards.md R315), or set control fields at most. -/
theorem hostWrite_cases (off : Offset) (v : Word) (s : State) :
    (regAt off = .cmd ∧ hostWrite off v s = .next (command (decodeCommand v) s))
    ∨ ((regAt off).isOperand = true ∧ s.busy = false ∧ hostWrite off v s = .next (advance (s.writeOperand (regAt off) v)))
    ∨ ((regAt off).isOperand = true ∧ s.busy = true ∧ hostWrite off v s = .fault (.operandWriteWhileBusy off))
    ∨ ((regAt off).isOperand = false ∧ ∃ len irqEn done, (done = true → s.done = true)
        ∧ hostWrite off v s = .next (advance (s.withControl len irqEn done))) := by
  unfold hostWrite
  cases hreg : regAt off with
  | cmd => exact .inl ⟨rfl, commandWrite_eq_command v s⟩
  | key k | iv k | msg k =>
    by_cases hb : s.busy = true
    · exact .inr (.inr (.inl ⟨rfl, hb, if_pos hb⟩))
    · exact .inr (.inl ⟨rfl, Bool.eq_false_iff.mpr hb, if_neg hb⟩)
  | status =>
    cases hv : v.getLsbD 1 with
    | false => exact .inr (.inr (.inr ⟨rfl, s.len, s.irqEn, s.done, id, rfl⟩))
    | true => exact .inr (.inr (.inr ⟨rfl, s.len, s.irqEn, false, Bool.noConfusion, rfl⟩))
  | ctrl => exact .inr (.inr (.inr ⟨rfl, s.len, v.getLsbD 0, s.done, id, rfl⟩))
  | len => exact .inr (.inr (.inr ⟨rfl, v, s.irqEn, s.done, id, rfl⟩))
  | loaded | reserved => exact .inr (.inr (.inr ⟨rfl, s.len, s.irqEn, s.done, id, rfl⟩))

/-! ### The step -/

/-- The state with other values of the host's side: the pending inputs, the gap, the answer and the count of free
values. -/
def State.withHost (inputs : List Input) (quiet : Option Nat) (resp : Response) (freeCount : Nat) (s : State) : State :=
  { s with inputs := inputs, quiet := quiet, resp := resp, freeCount := freeCount }

/-- `t` is what the engine makes of `s` after an input that touches the host's side alone, a POLL put back or not. -/
def EngineGoesOn (s t : State) : Prop :=
  ∃ n inputs quiet resp freeCount pending,
    t = { runPhases n (s.withHost inputs quiet resp freeCount) with inputs := pending }

theorem advanceBy_eq_runPhases (gap : Option Nat) (s : State) : ∃ n, advanceBy gap s = runPhases n s := by
  cases gap with
  | none => exact ⟨_, rfl⟩
  | some n => exact ⟨n, rfl⟩

theorem engineGoesOn_advanceBy (gap : Option Nat) (inputs : List Input) (quiet : Option Nat) (resp : Response)
    (freeCount : Nat) (s : State) : EngineGoesOn s (advanceBy gap (s.withHost inputs quiet resp freeCount)) := by
  obtain ⟨n, hn⟩ := advanceBy_eq_runPhases gap (s.withHost inputs quiet resp freeCount)
  exact ⟨n, inputs, quiet, resp, freeCount, _, by rw [hn]⟩

/-- A read writes the answer, and counts a free value at most. -/
theorem hostRead_eq_withHost (off : Offset) (s : State) :
    ∃ resp freeCount, hostRead off s = s.withHost s.inputs s.quiet resp freeCount := by
  unfold hostRead
  split
  · exact ⟨_, _, rfl⟩
  · exact ⟨_, s.freeCount, rfl⟩

/-- An access that is no legal write touches the host's side alone. -/
theorem serve_goesOn {a : Access} (h : ¬ (a.legal = true ∧ a.we = true)) (rest : List Input) (gap : Option Nat)
    (s : State) : ∃ t, serve a (s.take rest gap) = .next t ∧ EngineGoesOn s t := by
  unfold serve
  cases hlegal : a.legal with
  | false => exact ⟨_, rfl, engineGoesOn_advanceBy gap rest gap .busError s.freeCount s⟩
  | true =>
    have hwe : ¬ a.we = true := fun hwe => h ⟨hlegal, hwe⟩
    obtain ⟨resp, freeCount, hread⟩ := hostRead_eq_withHost a.addr (s.take rest gap)
    rw [if_neg (by decide), if_neg hwe, hread]
    exact ⟨_, rfl, engineGoesOn_advanceBy gap rest gap resp freeCount s⟩

theorem servePoll_goesOn (off : Offset) (mask value : Word) (pending rest : List Input) (gap : Option Nat) (s : State) :
    EngineGoesOn s (servePoll off mask value pending (s.take rest gap)) := by
  have hanswer : ∃ resp freeCount,
      (if off.toNat % 4 = 0 then hostRead off (s.take rest gap) else { s.take rest gap with resp := .busError })
        = s.withHost rest gap resp freeCount := by
    split
    · exact hostRead_eq_withHost off (s.take rest gap)
    · exact ⟨_, _, rfl⟩
  obtain ⟨resp, freeCount, hanswer⟩ := hanswer
  simp only [servePoll, hanswer]
  split
  · exact engineGoesOn_advanceBy gap rest gap resp freeCount s
  · obtain ⟨n, hn⟩ := advanceBy_eq_runPhases (gap.map (· + 1)) (s.withHost rest gap resp freeCount)
    exact ⟨n, rest, gap, resp, freeCount, pending, congrArg (fun u : State => { u with inputs := pending }) hn⟩

theorem legal_iff (a : Access) : a.legal = true ↔ a.size = 0b10#2 ∧ a.addr.toNat % 4 = 0 := by
  simp [Access.legal]

/-- A legal write access is the input of a `WR`. -/
theorem access_eq_wr {a : Access} (hlegal : a.legal = true) (hwe : a.we = true) (gap : Option Nat) :
    Input.access a gap = wr a.addr a.wdata gap := by
  obtain ⟨hsize, -⟩ := (legal_iff a).mp hlegal
  simp only [wr, writeAccess, ← hsize, ← hwe]

/-- What a step can do. -/
theorem step_cases (s : State) :
    (∃ rest, s.inputs = .resetEdge :: rest ∧ step s = .next (s.afterReset rest))
    ∨ step s = .refused .powerEvent
    ∨ (∃ t, step s = .next t ∧ EngineGoesOn s t)
    ∨ (∃ off v gap rest, s.inputs = wr off v gap :: rest ∧ off.toNat % 4 = 0
        ∧ step s = hostWrite off v (s.answered rest gap .writeOk)) := by
  have hgoesOn : EngineGoesOn s (advanceBy none s) :=
    engineGoesOn_advanceBy none s.inputs s.quiet s.resp s.freeCount s
  match hin : s.inputs with
  | [] => exact .inr (.inr (.inl ⟨_, by rw [step, hin], hgoesOn⟩))
  | .access a gap :: rest =>
    by_cases h : a.legal = true ∧ a.we = true
    · obtain ⟨hlegal, hwe⟩ := h
      have hwr := access_eq_wr hlegal hwe gap
      have hal := ((legal_iff a).mp hlegal).2
      exact .inr (.inr (.inr ⟨a.addr, a.wdata, gap, rest, by rw [hwr], hal, step_write hal (hin.trans (by rw [hwr]))⟩))
    · rw [step_access hin]
      exact .inr (.inr (.inl (serve_goesOn h rest gap s)))
  | .poll off mask value gap :: rest =>
    refine .inr (.inr (.inl ⟨_, by rw [step, hin], ?_⟩))
    exact servePoll_goesOn off mask value _ rest gap s
  | .waitIrq :: rest =>
    refine .inr (.inr (.inl ?_))
    cases hirq : irq s with
    | false => exact ⟨_, by rw [step, hin]; simp [hirq], hgoesOn⟩
    | true =>
      exact ⟨{ s with inputs := rest }, by rw [step, hin]; simp [hirq],
        0, s.inputs, s.quiet, s.resp, s.freeCount, rest, rfl⟩
  | .resetEdge :: rest => exact .inl ⟨rest, rfl, by rw [step, hin]⟩
  | .powerEvent :: rest => exact .inr (.inl (by rw [step, hin]))

/-- The ranges of the operand registers (20_memory.md R71). -/
theorem isOperand_regAt_iff (off : Offset) :
    (regAt off).isOperand = true
      ↔ 0x020 ≤ off.toNat ∧ off.toNat < 0x050 ∨ 0x080 ≤ off.toNat ∧ off.toNat < 0x0C0 := by
  have hkey : keyBase = 0x020 := rfl
  have hiv : ivBase = 0x040 := rfl
  have hmsg : msgBase = 0x080 := rfl
  have hmax : Config.maxLen = 64 := rfl
  unfold regAt offsetMap
  split_ifs <;> simp [Reg.isOperand] <;> omega

end Sys2Proof.Machine

open Sys2Proof Sys2Proof.Machine

/-- Settles O35: the one faulting write of `hostWrite_cases` is the hazard, and no other case of `step_cases` faults. -/
theorem faultExactlyOnOperandHazard : Obligations.FaultExactlyOnOperandHazard := by
  intro s
  constructor
  · rintro ⟨f, hf⟩
    obtain ⟨rest, -, hs⟩ | hs | ⟨t, hs, -⟩ | ⟨off, v, gap, rest, hin, hal, hs⟩ := step_cases s <;> rw [hs] at hf
    case inr.inr.inr =>
      obtain ⟨-, hw⟩ | ⟨-, -, hw⟩ | ⟨hop, hb, hw⟩ | ⟨-, _, _, _, -, hw⟩ :=
        hostWrite_cases off v (s.answered rest gap .writeOk)
      case inr.inr.inl =>
        exact ⟨_, gap, rest, hin, hb, rfl, hal, rfl, (isOperand_regAt_iff off).mp hop⟩
      all_goals simp [hw] at hf
    all_goals simp at hf
  · rintro ⟨a, gap, rest, hin, hb, hsize, hal, hwe, hrange⟩
    have hop := (isOperand_regAt_iff a.addr).mpr hrange
    have hwr := access_eq_wr ((legal_iff a).mpr ⟨hsize, hal⟩) hwe gap
    rw [step_write hal (hin.trans (by rw [hwr]))]
    obtain ⟨hcmd, -⟩ | ⟨-, hidle, -⟩ | ⟨-, -, hw⟩ | ⟨hnop, -⟩ :=
      hostWrite_cases a.addr a.wdata (s.answered rest gap .writeOk)
    case inr.inr.inl => exact ⟨_, hw⟩
    case inl => simp [hcmd, Reg.isOperand] at hop
    case inr.inl => exact absurd (hb.symm.trans hidle) (by decide)
    case inr.inr.inr => simp [hnop] at hop

end

section
/-! SUPPORT. The invariant, kept by each thing a step can do: a phase of the engine, a command, a host write. -/

namespace Sys2Proof.Machine

/-! ### The memory's part -/

/-- A lane word depends on its four bytes alone. -/
theorem laneWord_congr {m m' : Memory} {a : Nat} (h : ∀ b, a ≤ b → b < a + 4 → m'.read b = m.read b) :
    laneWord m' a = laneWord m a := by
  rw [laneWord, laneWord, h a (by omega) (by omega), h (a + 1) (by omega) (by omega), h (a + 2) (by omega) (by omega),
    h (a + 3) (by omega) (by omega)]

/-- KEY and IV lie below MSG, so `UnloadedIsZero` looks at bytes below MSG alone. -/
theorem UnloadedIsZero.congr {s t : State} (h : UnloadedIsZero s) (hkeyw : t.keyw = s.keyw) (hivw : t.ivw = s.ivw)
    (hread : ∀ a < msgBase, t.mem.read a = s.mem.read a) : UnloadedIsZero t := by
  obtain ⟨hkey, hiv⟩ := h
  have hbase : keyBase = 0x020 ∧ ivBase = 0x040 ∧ msgBase = 0x080 := ⟨rfl, rfl, rfl⟩
  refine ⟨fun k hk hclear => ?_, fun k hk hclear => ?_⟩
  · rw [laneWord_congr fun b _ hb => hread b (by simp only [keyOffset] at hb; omega)]
    exact hkey k hk (hkeyw ▸ hclear)
  · rw [laneWord_congr fun b _ hb => hread b (by simp only [ivOffset] at hb; omega)]
    exact hiv k hk (hivw ▸ hclear)

theorem isStorage_iff (a : Nat) : isStorage a = true ↔ 0x020 ≤ a ∧ a < 0x050 ∨ 0x080 ≤ a ∧ a < 0x0C0 := by
  have hbase : keyBase = 0x020 ∧ ivBase = 0x040 ∧ msgBase = 0x080 ∧ Config.maxLen = 64 := ⟨rfl, rfl, rfl, rfl⟩
  simp only [isStorage, Bool.or_eq_true, Bool.and_eq_true, decide_eq_true_eq]
  omega

theorem inStorage_writeMsgBlock {m : Memory} (h : m.inStorage) {b : Nat} (hb : b < Config.nblkMax) (x : Block) :
    (writeMsgBlock m b x).inStorage := by
  have hbase : msgBase = 0x080 ∧ Config.nblkMax = 4 := ⟨rfl, rfl⟩
  refine Memory.inStorage_writeBytes h _ _ fun j hj => (isStorage_iff _).mpr ?_
  rw [Block.length_bytes] at hj
  omega

/-- The engine writes MSG alone, in any state (10_state.md R31, R32). -/
theorem phaseStep_read_below (s : State) {a : Nat} (ha : a < msgBase) : (phaseStep s).mem.read a = s.mem.read a := by
  obtain hm | ⟨b, x, -, hm⟩ := phaseStep_mem_cases s <;> rw [hm]
  exact read_writeMsgBlock_outside s.mem b x (.inl (by omega))

theorem runPhases_read_below (n : Nat) (s : State) {a : Nat} (ha : a < msgBase) :
    (runPhases n s).mem.read a = s.mem.read a := by
  induction n generalizing s with
  | zero => rfl
  | succ n ih => rw [runPhases_succ, ih, phaseStep_read_below s ha]

/-! ### The engine -/

theorem mem_phaseStep_of_inv {s : State} (h : Inv s) : (phaseStep s).mem.wf ∧ (phaseStep s).mem.inStorage := by
  obtain ⟨hwf, hstorage, -⟩ := id h
  obtain hm | ⟨b, x, hb, hm⟩ := phaseStep_mem_cases s
  · rw [hm]
    exact ⟨hwf, hstorage⟩
  · have hs : s.seq ≠ .idle := fun hs => by simp [currentBlock, hs] at hb
    have hlt := currentBlock_lt (.of_inv h) hb
    rw [hm]
    exact ⟨Memory.wf_writeMsgBlock hwf b x,
      inStorage_writeMsgBlock hstorage (Nat.lt_of_lt_of_le hlt (nblk_le_of_inv h hs)) x⟩

theorem inv_phaseStep {s : State} (h : Inv s) : Inv (phaseStep s) := by
  obtain ⟨-, -, hbusy, -, hrun, herr, hzero⟩ := id h
  obtain ⟨hwf, hstorage⟩ := mem_phaseStep_of_inv h
  have hkeep := engineKeeps_phaseStep s
  have hrange := (engineInRange_phaseStep (.of_inv h)).1
  have hzero' : UnloadedIsZero (phaseStep s) :=
    hzero.congr hkeep.keyw hkeep.ivw fun _ ha => phaseStep_read_below s ha
  by_cases hf : s.seq = .finish
  · rw [phaseStep_finish hf] at hwf hstorage hrange hzero' ⊢
    exact ⟨hwf, hstorage, by simp [finishPhase], hrange, by simp [finishPhase], by simp [finishPhase], hzero'⟩
  · have hbusy' : s.busy = true ↔ (phaseStep s).seq ≠ .idle :=
      hbusy.trans ⟨fun hs => phaseStep_seq_ne_idle (.of_inv h) hs hf, seq_ne_idle_of_phaseStep⟩
    rw [phaseStep_eq_of_ne_finish hf] at hrange hzero' ⊢
    exact ⟨hwf, hstorage, hbusy', hrange, hrun, herr, hzero'⟩

theorem inv_runPhases {s : State} (h : Inv s) (n : Nat) : Inv (runPhases n s) := by
  induction n generalizing s with
  | zero => exact h
  | succ n ih => exact ih (inv_phaseStep h)

theorem inv_advance {s : State} (h : Inv s) : Inv (advance s) := by
  obtain ⟨n, hn⟩ := advance_eq_runPhases s
  exact hn ▸ inv_runPhases h n

/-! ### A command (60_exceptions.md R282, R283; 43_modes.md R230) -/

/-- What the decoder makes of a word: a cause by name, or an operation with its largest LEN (30_encoding.md R106). -/
def LegalResolution : Resolution → Prop
  | .reject c => c ≠ .none
  | .command d => d.maxLen = if d.op.mode = .blk then Config.blkMaxLen else Config.maxLen

theorem legalResolution_resolveMode {op : Op} (hop : op.mode ≠ .blk) (ksize : BitVec 2) :
    LegalResolution (resolveMode op ksize) := by
  unfold resolveMode
  cases strengthOf ksize with
  | none => exact Cause.noConfusion
  | some k => exact (if_neg hop).symm

theorem legalResolution_resolve (i : Instr) : LegalResolution i.resolve := by
  cases i with
  | ecbEnc ksize | ecbDec ksize | cbcEnc ksize | cbcDec ksize => exact legalResolution_resolveMode (by decide) ksize
  | blkEnc128 | blkEnc192 | blkEnc256 | blkDec128 | blkDec192 | blkDec256 => rfl

theorem legalResolution_decodeCommand (v : Word) : LegalResolution (decodeCommand v) := by
  by_cases h : ReservedWord v
  · rw [decodeCommand_reserved h]
    exact Cause.noConfusion
  · obtain ⟨i, hi, -⟩ := decodeCommand_of_not_reserved h
    rw [hi]
    exact legalResolution_resolve i

/-- The checks pass exactly when the operand words are loaded and LEN lies in 1 .. maxLen (60_exceptions.md R282). -/
theorem validate_eq_none_iff (d : Resolved) (s : State) :
    validate d s = .none ↔ (∀ n < d.strength.nk, s.keyw.getLsbD n = true) ∧ (d.op.mode = .cbc → s.ivw = 0xF#4)
      ∧ 1 ≤ s.len.toNat ∧ s.len.toNat ≤ d.maxLen := by
  by_cases hkey : ∀ n < d.strength.nk, s.keyw.getLsbD n = true
  · by_cases hiv : d.op.mode = .cbc → s.ivw = 0xF#4
    · rw [validate_of_loaded hkey hiv, and_iff_right hkey, and_iff_right hiv]
      split_ifs <;> simp <;> omega
    · obtain ⟨hmode, hclear⟩ := Classical.not_imp.mp hiv
      rw [validate_noIv hkey hmode hclear]
      exact iff_of_false (by decide) fun h => hiv h.2.1
  · have hclear : ∃ n < d.strength.nk, s.keyw.getLsbD n = false := by simpa using hkey
    rw [validate_noKey hclear]
    exact iff_of_false (by decide) fun h => hkey h.1

theorem ready_iff (d : Resolved) (s : State) : Ready d s ↔ s.busy = false ∧ validate d s = .none := by
  rw [validate_eq_none_iff]

theorem inv_reject {s : State} (h : Inv s) (hb : s.busy = false) {c : Cause} (hc : c ≠ .none) :
    Inv (s.clearOutcome.reject c) := by
  obtain ⟨hwf, hstorage, hbusy, hrange, -, -, hzero⟩ := h
  exact ⟨hwf, hstorage, hbusy, hrange, fun hb' => absurd (hb.symm.trans hb') (by decide), iff_of_true rfl hc, hzero⟩

/-- An accepted command runs on its loaded operands, on the blocks that its LEN gives (43_modes.md R231). -/
theorem runningOk_accept {s : State} {d : Resolved} (hd : LegalResolution (.command d)) (hv : validate d s = .none) :
    RunningOk (accept d s.clearOutcome) := by
  obtain ⟨hkey, hiv, hpos, hmax⟩ := (validate_eq_none_iff d s).mp hv
  have hblk : Config.blkMaxLen = 16 := rfl
  have hmaxLen : Config.maxLen = 64 := rfl
  have hnblkMax : Config.nblkMax = 4 := rfl
  rw [LegalResolution] at hd
  refine ⟨rfl, rfl, rfl, (keyLoaded_iff _ _).mpr hkey, fun hm => (ivLoaded_iff _).mpr (hiv hm), rfl, ?_, ?_, fun hm => ?_⟩
  · exact blockCount_pos_of_validate hv
  · simp only [accept_nblk, State.clearOutcome_len, blockCount]
    split at hd <;> omega
  · rw [if_pos (show d.op.mode = .blk from hm)] at hd
    simp only [accept_nblk, State.clearOutcome_len, blockCount]
    omega

theorem inv_accept {s : State} (h : Inv s) {d : Resolved} (hd : LegalResolution (.command d))
    (hv : validate d s = .none) : Inv (accept d s.clearOutcome) := by
  obtain ⟨hwf, hstorage, -, -, -, -, hzero⟩ := h
  have hrange : EngineInRange (accept d s.clearOutcome) := engineInRange_accept hv
  exact ⟨hwf, hstorage, by simp, hrange.1, fun _ => runningOk_accept hd hv, by simp, hzero⟩

/-- A command whose decoding is legal keeps the invariant, in each of its three cases. -/
theorem inv_command {s : State} (h : Inv s) {r : Resolution} (hr : LegalResolution r) : Inv (command r s) := by
  by_cases hb : s.busy = true
  · exact command_busy hb r ▸ inv_advance h
  · have hb : s.busy = false := Bool.eq_false_iff.mpr hb
    cases r with
    | reject c => exact command_reject hb c ▸ inv_reject h hb hr
    | command d =>
      by_cases hv : validate d s = .none
      · exact command_accept hb hv ▸ inv_advance (inv_accept h hr hv)
      · exact command_invalid hb rfl hv ▸ inv_reject h hb hv

/-! ### A host write -/

theorem inv_withControl {s : State} (h : Inv s) (len : Word) (irqEn : Bool) {done : Bool}
    (hdone : done = true → s.done = true) : Inv (s.withControl len irqEn done) := by
  obtain ⟨hwf, hstorage, hbusy, hrange, hrun, herr, hzero⟩ := h
  refine ⟨hwf, hstorage, hbusy, hrange, fun hb => ?_, herr, hzero⟩
  obtain ⟨hclear, hrest⟩ := hrun hb
  exact ⟨Bool.eq_false_iff.mpr fun hd => by simp [hdone hd] at hclear, hrest⟩

theorem getLsbD_markKey (keyw : BitVec 8) (k i : Nat) (hk : k < 8) :
    (markKey keyw k).getLsbD i = (keyw.getLsbD i || decide (i = k)) := by
  rw [markKey, BitVec.getLsbD_or, ← BitVec.twoPow_eq, BitVec.getLsbD_twoPow]
  simp [hk, eq_comm]

theorem getLsbD_markIv (ivw : BitVec 4) (k i : Nat) (hk : k < 4) :
    (markIv ivw k).getLsbD i = (ivw.getLsbD i || decide (i = k)) := by
  rw [markIv, BitVec.getLsbD_or, ← BitVec.twoPow_eq, BitVec.getLsbD_twoPow]
  simp [hk, eq_comm]

theorem laneWord_writeBytes_other (m : Memory) {a b : Nat} (v : Word) (h : b + 4 ≤ a ∨ a + 4 ≤ b) :
    laneWord (m.writeBytes a (laneBytes v)) b = laneWord m b :=
  laneWord_congr fun c _ _ => Memory.read_writeBytes_outside m a _ (by rw [length_laneBytes]; omega)

/-- The word a KEY or IV write stores is marked as loaded, and no other operand word changes. -/
theorem unloadedIsZero_writeOperand {s : State} (h : UnloadedIsZero s) (off : Offset) (v : Word) :
    UnloadedIsZero (s.writeOperand (regAt off) v) := by
  obtain ⟨hkey, hiv⟩ := h
  have hbase : keyBase = 0x020 ∧ ivBase = 0x040 ∧ msgBase = 0x080 := ⟨rfl, rfl, rfl⟩
  cases hreg : regAt off with
  | cmd | status | ctrl | len | loaded | reserved => exact ⟨hkey, hiv⟩
  | key k =>
    have hk := regAt_key hreg
    refine ⟨fun i hi hclear => ?_, fun i hi hclear => ?_⟩
    · simp only [State.writeOperand, getLsbD_markKey _ _ _ hk, Bool.or_eq_false_iff, decide_eq_false_iff_not] at hclear
      exact (laneWord_writeBytes_other s.mem v (by simp only [keyOffset]; omega)).trans (hkey i hi hclear.1)
    · exact (laneWord_writeBytes_other s.mem v (by simp only [keyOffset, ivOffset]; omega)).trans (hiv i hi hclear)
  | iv k =>
    have hk := regAt_iv hreg
    refine ⟨fun i hi hclear => ?_, fun i hi hclear => ?_⟩
    · exact (laneWord_writeBytes_other s.mem v (by simp only [keyOffset, ivOffset]; omega)).trans (hkey i hi hclear)
    · simp only [State.writeOperand, getLsbD_markIv _ _ _ hk, Bool.or_eq_false_iff, decide_eq_false_iff_not] at hclear
      exact (laneWord_writeBytes_other s.mem v (by simp only [ivOffset]; omega)).trans (hiv i hi hclear.1)
  | msg k =>
    refine ⟨fun i hi hclear => ?_, fun i hi hclear => ?_⟩
    · exact (laneWord_writeBytes_other s.mem v (by simp only [keyOffset, msgOffset]; omega)).trans (hkey i hi hclear)
    · exact (laneWord_writeBytes_other s.mem v (by simp only [ivOffset, msgOffset]; omega)).trans (hiv i hi hclear)

theorem mem_writeOperand {s : State} (hwf : s.mem.wf) (hstorage : s.mem.inStorage) (off : Offset) (v : Word) :
    (s.writeOperand (regAt off) v).mem.wf ∧ (s.writeOperand (regAt off) v).mem.inStorage := by
  have hbase : keyBase = 0x020 ∧ ivBase = 0x040 ∧ msgBase = 0x080 := ⟨rfl, rfl, rfl⟩
  have hstore (a : Nat) (ha : ∀ j < 4, isStorage (a + j) = true) :
      (s.mem.writeBytes a (laneBytes v)).wf ∧ (s.mem.writeBytes a (laneBytes v)).inStorage :=
    ⟨Memory.wf_writeBytes hwf _ _, Memory.inStorage_writeBytes hstorage _ _ ha⟩
  cases hreg : regAt off with
  | cmd | status | ctrl | len | loaded | reserved => exact ⟨hwf, hstorage⟩
  | key k =>
    have hk := regAt_key hreg
    exact hstore (keyOffset k) fun j hj => (isStorage_iff _).mpr (by simp only [keyOffset]; omega)
  | iv k =>
    have hk := regAt_iv hreg
    exact hstore (ivOffset k) fun j hj => (isStorage_iff _).mpr (by simp only [ivOffset]; omega)
  | msg k =>
    have hk := regAt_msg hreg
    exact hstore (msgOffset k) fun j hj => (isStorage_iff _).mpr (by simp only [msgOffset]; omega)

/-- An operand write touches the operand bytes and the LOADED bits alone. -/
theorem writeOperand_eq (r : Reg) (v : Word) (s : State) :
    s.writeOperand r v = { s with mem := (s.writeOperand r v).mem, keyw := (s.writeOperand r v).keyw,
                                  ivw := (s.writeOperand r v).ivw } := by
  cases r <;> rfl

theorem inv_writeOperand {s : State} (h : Inv s) (hb : s.busy = false) (off : Offset) (v : Word) :
    Inv (s.writeOperand (regAt off) v) := by
  obtain ⟨hwf, hstorage, hbusy, hrange, -, herr, hzero⟩ := h
  obtain ⟨hwf', hstorage'⟩ := mem_writeOperand hwf hstorage off v
  have hzero' := unloadedIsZero_writeOperand hzero off v
  rw [writeOperand_eq] at hwf' hstorage' hzero' ⊢
  exact ⟨hwf', hstorage', hbusy, hrange, fun hb' => absurd (hb.symm.trans hb') (by decide), herr, hzero'⟩

theorem inv_hostWrite {s t : State} (h : Inv s) {off : Offset} {v : Word} (ht : hostWrite off v s = .next t) : Inv t := by
  obtain ⟨-, hw⟩ | ⟨-, hb, hw⟩ | ⟨-, -, hw⟩ | ⟨-, len, irqEn, done, hdone, hw⟩ := hostWrite_cases off v s
  case inr.inr.inl => simp [hw] at ht
  all_goals
    rw [hw, Host.Outcome.next.injEq] at ht
    subst ht
  case inl => exact inv_command h (legalResolution_decodeCommand v)
  case inr.inl => exact inv_advance (inv_writeOperand h hb off v)
  case inr.inr.inr => exact inv_advance (inv_withControl h len irqEn hdone)

theorem inv_engineGoesOn {s t : State} (h : Inv s) (ht : EngineGoesOn s t) : Inv t := by
  obtain ⟨n, inputs, quiet, resp, freeCount, pending, rfl⟩ := ht
  exact inv_runPhases (s := s.withHost inputs quiet resp freeCount) h n

theorem inv_reset : Inv State.reset := by decide

end Sys2Proof.Machine

open Sys2Proof Sys2Proof.Machine

/-- Settles O42: the reset state is checked as it stands. -/
theorem invariantHoldsAtReset : Obligations.InvariantHoldsAtReset := inv_reset

/-- Settles O43: each case of `step_cases` keeps the invariant. -/
theorem invariantKeptByEveryStep : Obligations.InvariantKeptByEveryStep := by
  intro s t h ht
  obtain ⟨rest, -, hs⟩ | hs | ⟨u, hs, hu⟩ | ⟨off, v, gap, rest, -, -, hs⟩ := step_cases s <;> rw [hs] at ht
  case inl =>
    rw [Host.Outcome.next.injEq] at ht
    exact ht ▸ inv_reset
  case inr.inl => simp at ht
  case inr.inr.inl =>
    rw [Host.Outcome.next.injEq] at ht
    exact ht ▸ inv_engineGoesOn h hu
  case inr.inr.inr => exact inv_hostWrite (s := s.answered rest gap .writeOk) h ht

end

section
/-! SUPPORT. What a write of an operand register stores (20_memory.md R74, R76), what a step leaves of KEY, IV and LOADED
(10_state.md R31, R32, R41, R42), and a run of KEY writes (30_encoding.md R110). -/

namespace Sys2Proof.Machine

/-! ### One operand write -/

/-- The window offset of an operand register (20_memory.md R71). -/
def Reg.operandOffset : Reg → Nat
  | .key k => keyOffset k
  | .iv k => ivOffset k
  | .msg k => msgOffset k
  | .cmd | .status | .ctrl | .len | .loaded | .reserved => 0

/-- At an aligned offset the offset map is inverted by `operandOffset`. -/
theorem operandOffset_regAt {off : Offset} (hal : off.toNat % 4 = 0) (hop : (regAt off).isOperand = true) :
    (regAt off).operandOffset = off.toNat := by
  have hrange := (isOperand_regAt_iff off).mp hop
  by_cases hkey : off.toNat < 0x040
  · rw [regAt_of_toNat_key (k := (off.toNat - 0x020) / 4) (by omega) (by omega)]
    change 0x020 + 4 * ((off.toNat - 0x020) / 4) = off.toNat
    omega
  · by_cases hiv : off.toNat < 0x050
    · rw [regAt_of_toNat_iv (k := (off.toNat - 0x040) / 4) (by omega) (by omega)]
      change 0x040 + 4 * ((off.toNat - 0x040) / 4) = off.toNat
      omega
    · rw [regAt_of_toNat_msg (k := (off.toNat - 0x080) / 4) (by omega) (by omega)]
      change 0x080 + 4 * ((off.toNat - 0x080) / 4) = off.toNat
      omega

theorem writeOperand_mem {r : Reg} (h : r.isOperand = true) (v : Word) (s : State) :
    (s.writeOperand r v).mem = s.mem.writeBytes r.operandOffset (laneBytes v) := by
  cases r with
  | key k | iv k | msg k => rfl
  | cmd | status | ctrl | len | loaded | reserved => exact absurd h (by decide)

theorem writeOperand_answered (r : Reg) (v : Word) (s : State) (rest : List Input) (gap : Option Nat)
    (resp : Response) : (s.answered rest gap resp).writeOperand r v = (s.writeOperand r v).answered rest gap resp := by
  cases r <;> rfl

theorem writeOperand_seq (r : Reg) (v : Word) (s : State) : (s.writeOperand r v).seq = s.seq := by
  rw [writeOperand_eq]

/-- While IDLE the step that serves a write of an operand register is the write and no more. -/
theorem step_write_operand {s : State} {off : Offset} {v : Word} {gap : Option Nat} {rest : List Input} (hidle : Idle s)
    (hal : off.toNat % 4 = 0) (hop : (regAt off).isOperand = true) (hin : s.inputs = wr off v gap :: rest) :
    step s = .next ((s.writeOperand (regAt off) v).answered rest gap .writeOk) := by
  obtain ⟨hb, hseq⟩ := hidle
  rw [step_write hal hin]
  obtain ⟨hcmd, -⟩ | ⟨-, -, hw⟩ | ⟨-, hbusy, -⟩ | ⟨hnop, -⟩ := hostWrite_cases off v (s.answered rest gap .writeOk)
  case inr.inl =>
    rw [hw, writeOperand_answered]
    exact congrArg Host.Outcome.next (advance_idle ((writeOperand_seq _ v s).trans hseq))
  case inl => simp [hcmd, Reg.isOperand] at hop
  case inr.inr.inl => exact absurd (hb.symm.trans hbusy) (by decide)
  case inr.inr.inr => simp [hnop] at hop

/-- Byte j of a lane word is the value's bits [8j+7:8j] (20_memory.md R74). -/
theorem read_writeBytes_laneBytes (m : Memory) (a : Nat) (v : Word) {j : Nat} (hj : j < 4) :
    (m.writeBytes a (laneBytes v)).read (a + j) = v.extractLsb' (8 * j) 8 := by
  rw [Memory.read_writeBytes m a _ hj]
  match j, hj with
  | 0, _ | 1, _ | 2, _ | 3, _ => rfl

theorem read_writeBytes_laneBytes_outside (m : Memory) {a b : Nat} (v : Word) (h : b < a ∨ a + 4 ≤ b) :
    (m.writeBytes a (laneBytes v)).read b = m.read b :=
  Memory.read_writeBytes_outside m a (laneBytes v) h

/-- The four bytes of register k of a run of registers, and no others (20_memory.md R74). -/
theorem stores_laneBytes (m : Memory) (base k : Nat) (v : Word) :
    laneWord (m.writeBytes (base + 4 * k) (laneBytes v)) (base + 4 * k) = v
      ∧ (∀ j < 4, (m.writeBytes (base + 4 * k) (laneBytes v)).read (base + (4 * k + j)) = v.extractLsb' (8 * j) 8)
      ∧ ∀ a, a < base + 4 * k ∨ base + 4 * k + 4 ≤ a →
          (m.writeBytes (base + 4 * k) (laneBytes v)).read a = m.read a := by
  refine ⟨laneWord_writeBytes m _ v, fun j hj => ?_, fun a ha => read_writeBytes_laneBytes_outside m v ha⟩
  rw [← Nat.add_assoc]
  exact read_writeBytes_laneBytes m _ v hj

theorem toNat_offset {n : Nat} (h : n < 4096) : (BitVec.ofNat 12 n).toNat = n := by
  rw [BitVec.toNat_ofNat, Nat.mod_eq_of_lt h]

/-- `step_write_operand` at an offset given as a number. -/
theorem step_write_operand_at {s : State} {n : Nat} {r : Reg} {v : Word} {gap : Option Nat} {rest : List Input}
    (hn : n < 4096) (hal : n % 4 = 0) (hreg : regAt (BitVec.ofNat 12 n) = r) (hop : r.isOperand = true)
    (hidle : Idle s) (hin : s.inputs = wr (BitVec.ofNat 12 n) v gap :: rest) :
    step s = .next ((s.writeOperand r v).answered rest gap .writeOk) := by
  subst hreg
  exact step_write_operand hidle (by rwa [toNat_offset hn]) hop hin

/-! ### What a step leaves of KEY, IV and LOADED -/

/-- The same KEY and IV bytes, and the same LOADED bits: what the engine never writes. -/
def SameKeyIv (s t : State) : Prop :=
  (∀ a < msgBase, t.mem.read a = s.mem.read a) ∧ t.keyw = s.keyw ∧ t.ivw = s.ivw

theorem sameKeyIv_runPhases (n : Nat) (s : State) : SameKeyIv s (runPhases n s) := by
  have hkeep := engineKeeps_runPhases n s
  exact ⟨fun a ha => runPhases_read_below n s ha, hkeep.keyw, hkeep.ivw⟩

theorem sameKeyIv_advance (s : State) : SameKeyIv s (advance s) := by
  obtain ⟨n, hn⟩ := advance_eq_runPhases s
  exact hn ▸ sameKeyIv_runPhases n s

theorem sameKeyIv_command (r : Resolution) (s : State) : SameKeyIv s (command r s) := by
  obtain ⟨-, hc⟩ | ⟨-, c, hc⟩ | ⟨-, d, -, -, hc⟩ := command_cases r s <;> rw [hc]
  · exact sameKeyIv_advance s
  · exact ⟨fun _ _ => rfl, rfl, rfl⟩
  · exact sameKeyIv_advance (accept d s.clearOutcome)

/-- A step that answers a next state is a reset edge, a write of an operand register while no command runs, or leaves
KEY, IV and LOADED alone. -/
theorem step_operand_cases {s t : State} (h : step s = .next t) :
    (∃ rest, s.inputs = .resetEdge :: rest)
    ∨ (∃ off v gap rest, s.inputs = wr off v gap :: rest ∧ off.toNat % 4 = 0 ∧ (regAt off).isOperand = true
        ∧ s.busy = false ∧ SameKeyIv (s.writeOperand (regAt off) v) t)
    ∨ SameKeyIv s t := by
  obtain ⟨rest, hin, -⟩ | hs | ⟨u, hs, n, inputs, quiet, resp, freeCount, _, rfl⟩ | ⟨off, v, gap, rest, hin, hal, hs⟩ :=
    step_cases s
  case inl => exact .inl ⟨rest, hin⟩
  case inr.inl => simp [hs] at h
  case inr.inr.inl =>
    rw [hs, Host.Outcome.next.injEq] at h
    subst h
    exact .inr (.inr (sameKeyIv_runPhases n (s.withHost inputs quiet resp freeCount)))
  case inr.inr.inr =>
    rw [hs] at h
    obtain ⟨-, hw⟩ | ⟨hop, hb, hw⟩ | ⟨-, -, hw⟩ | ⟨-, len, irqEn, done, -, hw⟩ :=
      hostWrite_cases off v (s.answered rest gap .writeOk) <;> rw [hw] at h
    case inr.inr.inl => simp at h
    all_goals
      rw [Host.Outcome.next.injEq] at h
      subst h
    case inl => exact .inr (.inr (sameKeyIv_command _ (s.answered rest gap .writeOk)))
    case inr.inl =>
      rw [writeOperand_answered]
      exact .inr (.inl ⟨off, v, gap, rest, hin, hal, hop, hb, sameKeyIv_advance _⟩)
    case inr.inr.inr => exact .inr (.inr (sameKeyIv_advance ((s.answered rest gap .writeOk).withControl len irqEn done)))

/-- An operand write sets the LOADED bit of its own register and no other. -/
theorem getLsbD_writeOperand_keyw (off : Offset) (v : Word) (s : State) (i : Nat) :
    (s.writeOperand (regAt off) v).keyw.getLsbD i = (s.keyw.getLsbD i || decide (regAt off = .key i)) := by
  cases hreg : regAt off with
  | key k => simp [State.writeOperand, getLsbD_markKey _ _ _ (regAt_key hreg), eq_comm]
  | cmd | status | ctrl | len | loaded | iv k | msg k | reserved => simp [State.writeOperand]

theorem getLsbD_writeOperand_ivw (off : Offset) (v : Word) (s : State) (i : Nat) :
    (s.writeOperand (regAt off) v).ivw.getLsbD i = (s.ivw.getLsbD i || decide (regAt off = .iv i)) := by
  cases hreg : regAt off with
  | iv k => simp [State.writeOperand, getLsbD_markIv _ _ _ (regAt_iv hreg), eq_comm]
  | cmd | status | ctrl | len | loaded | key k | msg k | reserved => simp [State.writeOperand]

end Sys2Proof.Machine

open Sys2Proof Sys2Proof.Machine

/-- Settles O28: an operand write of KEYk while IDLE. -/
theorem keyWriteStoresAndMarks : Obligations.KeyWriteStoresAndMarks := fun s k v _ _ hk hidle hin =>
  ⟨s.mem.writeBytes (0x020 + 4 * k) (laneBytes v),
    step_write_operand_at (n := 0x020 + 4 * k) (by omega) (by omega) (regAt_keyOffset k hk) rfl hidle hin,
    stores_laneBytes s.mem 0x020 k v⟩

/-- Settles O29: an operand write of IVk while IDLE. -/
theorem ivWriteStoresAndMarks : Obligations.IvWriteStoresAndMarks := fun s k v _ _ hk hidle hin =>
  ⟨s.mem.writeBytes (0x040 + 4 * k) (laneBytes v),
    step_write_operand_at (n := 0x040 + 4 * k) (by omega) (by omega) (regAt_ivOffset k hk) rfl hidle hin,
    stores_laneBytes s.mem 0x040 k v⟩

/-- Settles O30: an operand write of MSGk while IDLE. -/
theorem msgWriteStores : Obligations.MsgWriteStores := fun s k v _ _ hk hidle hin =>
  ⟨s.mem.writeBytes (0x080 + 4 * k) (laneBytes v),
    step_write_operand_at (n := 0x080 + 4 * k) (by omega) (by omega) (regAt_msgOffset k hk) rfl hidle hin,
    stores_laneBytes s.mem 0x080 k v⟩

/-- Settles O31: each register's write is one field's update, and an IDLE engine does nothing after it. -/
theorem controlRegisterWrites : Obligations.ControlRegisterWrites := by
  intro s v gap rest hidle
  refine ⟨step_write_status hidle, step_write_ctrl hidle, fun hin => ?len, fun hin => ?loaded⟩
  case len =>
    have hreg : regAt 0x00C#12 = .len := rfl
    rw [step_write rfl hin, hostWrite, hreg]
    exact congrArg Host.Outcome.next (advance_idle hidle.2)
  case loaded =>
    have hreg : regAt 0x010#12 = .loaded := rfl
    rw [step_write rfl hin, hostWrite, hreg]
    exact congrArg Host.Outcome.next (advance_idle hidle.2)

/-- Settles O44: of the cases of `step_operand_cases`, only an operand write changes a byte, one of its own four. -/
theorem keyAndIvChangeOnlyByHostWrite : Obligations.KeyAndIvChangeOnlyByHostWrite := by
  intro s t a hstep ha hne
  have hmsg : a < msgBase := Nat.lt_of_lt_of_le ha (by decide)
  obtain hreset | ⟨off, v, gap, rest, hin, hal, hop, hb, hread, -⟩ | ⟨hread, -⟩ := step_operand_cases hstep
  · exact .inl hreset
  · rw [hread a hmsg, writeOperand_mem hop, operandOffset_regAt hal hop] at hne
    have hin4 : off.toNat ≤ a ∧ a < off.toNat + 4 := by
      by_contra hout
      exact hne (read_writeBytes_laneBytes_outside _ v (by omega))
    have hrange := (isOperand_regAt_iff off).mp hop
    exact .inr ⟨off, v, gap, rest, hin, by omega, by omega, hb⟩
  · exact absurd (hread a hmsg) hne

/-- Settles O45: of the cases of `step_operand_cases`, only an operand write sets a bit, its own register's. -/
theorem loadedBitsSetByWritesClearedByReset : Obligations.LoadedBitsSetByWritesClearedByReset := by
  intro s t hstep hnoReset
  obtain ⟨rest, hin⟩ | ⟨off, v, gap, rest, hin, hal, hop, -, -, hkeyw, hivw⟩ | ⟨-, hkeyw, hivw⟩ :=
    step_operand_cases hstep
  · exact absurd hin (hnoReset rest)
  · rw [hkeyw, hivw]
    simp only [getLsbD_writeOperand_keyw, getLsbD_writeOperand_ivw]
    have hoffset (r : Reg) (hr : regAt off = r) : off = BitVec.ofNat 12 r.operandOffset :=
      eq_ofNat_of_toNat (hr ▸ (operandOffset_regAt hal hop).symm)
    refine ⟨fun i hi => ?_, fun i hi => ?_, fun i hclear hset => ⟨v, gap, rest, ?_⟩,
      fun i hclear hset => ⟨v, gap, rest, ?_⟩⟩
    · rw [hi, Bool.true_or]
    · rw [hi, Bool.true_or]
    · rw [hclear, Bool.false_or, decide_eq_true_eq] at hset
      rw [hin, hoffset _ hset]
      rfl
    · rw [hclear, Bool.false_or, decide_eq_true_eq] at hset
      rw [hin, hoffset _ hset]
      rfl
  · rw [hkeyw, hivw]
    exact ⟨fun _ => id, fun _ => id, fun i hclear hset => by simp [hclear] at hset,
      fun i hclear hset => by simp [hclear] at hset⟩

end

section
/-! SUPPORT. A run of KEY writes (30_encoding.md R110), and the host's poll loop on BUSY (R108). -/

namespace Sys2Proof.Machine

/-! ### Runs of the core -/

theorem run_succ_of_step (M : Host.Core) {s s' : M.State} (h : M.step s = .next s') (n : Nat) :
    M.run (n + 1) s = M.run n s' := by
  rw [Host.Core.run, h]

theorem run_succ {s s' : State} (h : step s = .next s') (n : Nat) : core.run (n + 1) s = core.run n s' :=
  run_succ_of_step core h n

/-! ### LDKEY -/

theorem laneBytes_append (b0 b1 b2 b3 : Byte) : laneBytes (b3 ++ b2 ++ b1 ++ b0) = [b0, b1, b2, b3] := by
  have h0 : (b3 ++ b2 ++ b1 ++ b0).extractLsb' 0 8 = b0 := BitVec.extractLsb'_append_eq_right
  have h1 : (b3 ++ b2 ++ b1 ++ b0).extractLsb' 8 8 = b1 := by
    rw [BitVec.extractLsb'_append_eq_of_le (by omega)]
    exact BitVec.extractLsb'_append_eq_right
  have h2 : (b3 ++ b2 ++ b1 ++ b0).extractLsb' 16 8 = b2 := by
    rw [BitVec.extractLsb'_append_eq_of_le (by omega), BitVec.extractLsb'_append_eq_of_le (by omega)]
    exact BitVec.extractLsb'_append_eq_right
  have h3 : (b3 ++ b2 ++ b1 ++ b0).extractLsb' 24 8 = b3 := by
    rw [BitVec.extractLsb'_append_eq_of_le (by omega), BitVec.extractLsb'_append_eq_of_le (by omega)]
    exact BitVec.extractLsb'_append_eq_left
  rw [laneBytes, h0, h1, h2, h3]

/-- A list of at least four bytes is a group of four and the rest. -/
theorem exists_four_of_length {bytes : List Byte} {n : Nat} (h : bytes.length = 4 * (n + 1)) :
    ∃ b0 b1 b2 b3 tail, bytes = b0 :: b1 :: b2 :: b3 :: tail ∧ tail.length = 4 * n := by
  match bytes, h with
  | b0 :: b1 :: b2 :: b3 :: tail, h => exact ⟨b0, b1, b2, b3, tail, rfl, by simp only [List.length_cons] at h; omega⟩
  | [], h | [_], h | [_, _], h | [_, _, _], h => simp only [List.length_cons, List.length_nil] at h; omega

/-- The state after some KEY writes: the host's side moved on, the bytes stored, the LOADED bits of `n` registers from
KEYi on set, and nothing else changed. -/
def KeyRunDone (s : State) (i n : Nat) (bytes : List Byte) (rest : List Input) (t : State) : Prop :=
  ∃ keyw quiet resp,
    t = { s with mem := s.mem.writeBytes (keyOffset i) bytes, keyw := keyw, inputs := rest, quiet := quiet, resp := resp }
    ∧ ∀ k, keyw.getLsbD k = (s.keyw.getLsbD k || decide (i ≤ k ∧ k < i + n))

/-- A run of KEY writes on an IDLE block takes one step a word. -/
theorem run_writeRun_key {n i : Nat} {bytes : List Byte} {s : State} {rest : List Input} (hlen : bytes.length = 4 * n)
    (hin : i + n ≤ 8) (hidle : Idle s) (hinputs : s.inputs = writeRun (keyOffset i) bytes ++ rest) :
    ∃ t, core.run n s = .next t ∧ KeyRunDone s i n bytes rest t := by
  induction n generalizing i bytes s with
  | zero =>
    obtain rfl : bytes = [] := List.length_eq_zero_iff.mp hlen
    have hinputs : s.inputs = rest := hinputs
    exact ⟨s, rfl, s.keyw, s.quiet, s.resp, by rw [Memory.writeBytes_nil, ← hinputs], fun k => by
      simp [show ¬ (i ≤ k ∧ k < i) by omega]⟩
  | succ n ih =>
    obtain ⟨b0, b1, b2, b3, tail, rfl, htail⟩ := exists_four_of_length hlen
    have hkey : keyOffset i = 0x020 + 4 * i := rfl
    have hstep := step_write_operand_at (n := keyOffset i) (by omega) (by omega) (regAt_keyOffset i (by omega)) rfl hidle
      hinputs
    obtain ⟨t, ht, keyw, quiet, resp, rfl, hkeyw⟩ := ih (i := i + 1)
      (s := (s.writeOperand (.key i) (b3 ++ b2 ++ b1 ++ b0)).answered _ none .writeOk) htail (by omega) hidle rfl
    refine ⟨_, (run_succ hstep n).trans ht, keyw, quiet, resp, ?_, fun k => ?_⟩
    · simp only [State.writeOperand, State.answered, laneBytes_append, Memory.writeBytes_cons, Memory.writeBytes_nil]
      rfl
    · rw [hkeyw]
      simp only [State.writeOperand, State.answered, getLsbD_markKey _ _ _ (show i < 8 by omega), Bool.or_assoc]
      congr 1
      rw [← Bool.decide_or, decide_eq_decide]
      omega

/-! ### POLL of BUSY (30_encoding.md R108) -/

theorem statusWord_and_one (s : State) : statusWord s &&& 0x00000001#32 = if s.busy then 1#32 else 0#32 := by
  unfold statusWord
  cases s.busy <;> cases s.done <;> cases s.err <;> cases s.cause <;> rfl

/-- An aligned POLL is a read, then the gap if it hits, or at least one phase if it misses. -/
theorem servePoll_of_aligned {off : Offset} (hal : off.toNat % 4 = 0) (mask value : Word) (pending : List Input)
    (s : State) :
    servePoll off mask value pending s
      = if pollHit mask value (hostRead off s).resp then advance (hostRead off s)
        else { advanceBy ((hostRead off s).quiet.map (· + 1)) (hostRead off s) with inputs := pending } := by
  simp only [servePoll, if_pos hal]

section
variable {s : State} {gap : Option Nat} {rest : List Input}

theorem hostRead_status : hostRead 0x004#12 (s.take rest gap) = s.answered rest gap (.readOk (statusWord s)) := by
  have hreg : regAt 0x004#12 = .status := rfl
  rw [hostRead, hreg, if_neg (by simp [Reg.isMsg])]
  rfl

theorem pollHit_status :
    pollHit 0x00000001#32 0x00000000#32 (s.answered rest gap (.readOk (statusWord s))).resp = !s.busy := by
  change (statusWord s &&& 0x00000001#32 == 0x00000000#32) = !s.busy
  rw [statusWord_and_one]
  cases s.busy <;> rfl

variable (hin : s.inputs = .poll 0x004#12 0x00000001#32 0x00000000#32 gap :: rest)
include hin

theorem step_poll_busy : step s = .next (servePoll 0x004#12 0x00000001#32 0x00000000#32 s.inputs (s.take rest gap)) := by
  rw [step, hin]

/-- The POLL for BUSY = 0 hits while no command runs. -/
theorem step_poll_busy_hit (hb : s.busy = false) :
    step s = .next (advance (s.answered rest gap (.readOk (statusWord s)))) := by
  rw [step_poll_busy hin, servePoll_of_aligned rfl, hostRead_status, if_pos (pollHit_status.trans (by rw [hb]; rfl))]

/-- While a command runs the POLL misses, and the engine makes at least one phase (70_reset_and_hazards.md R323). -/
theorem step_poll_busy_miss (hb : s.busy = true) :
    step s = .next { advanceBy (gap.map (· + 1)) (s.answered rest gap (.readOk (statusWord s))) with
      inputs := s.inputs } := by
  have hmiss : ¬ pollHit 0x00000001#32 0x00000000#32 (s.answered rest gap (.readOk (statusWord s))).resp = true := by
    rw [pollHit_status, hb]
    decide
  rw [step_poll_busy hin, servePoll_of_aligned rfl, hostRead_status, if_neg hmiss]
  rfl

end

/-- A gap after a missed read is at least one phase, or the rest of the command. -/
theorem phasesLeft_advanceBy_lt {s : State} (h : Inv s) (hs : s.seq ≠ .idle) (gap : Option Nat) :
    phasesLeft (advanceBy (gap.map (· + 1)) s) < phasesLeft s := by
  have hrange := EngineInRange.of_inv h
  have hpos : 0 < phasesLeft s := Nat.pos_of_ne_zero fun h0 => hs ((phasesLeft_eq_zero_iff s).mp h0)
  have hle (n : Nat) (u : State) (hu : Inv u) : phasesLeft (runPhases n u) ≤ phasesLeft u := by
    induction n generalizing u with
    | zero => exact Nat.le_refl _
    | succ n ih =>
      refine (ih _ (inv_phaseStep hu)).trans ?_
      by_cases hidle : u.seq = .idle
      · rw [phaseStep_idle hidle]
      · exact Nat.le_of_succ_le (phasesLeft_phaseStep (.of_inv hu) hidle).le
  cases gap with
  | none =>
    obtain ⟨-, -, -, -, hidle⟩ := succeeded_runPhases hrange hs (phasesLeft_le_of_inv h)
    exact ((phasesLeft_eq_zero_iff _).mpr hidle).trans_lt hpos
  | some n =>
    have hstep := phasesLeft_phaseStep hrange hs
    have hn := hle n _ (inv_phaseStep h)
    change phasesLeft (runPhases n (phaseStep s)) < phasesLeft s
    omega

/-- While IDLE the POLL for BUSY = 0 is over after one read. -/
theorem poll_hit {s : State} {gap : Option Nat} {rest : List Input} (n : Nat) (h : Inv s)
    (hin : s.inputs = .poll 0x004#12 0x00000001#32 0x00000000#32 gap :: rest) (hs : s.seq = .idle) :
    ∃ k ≤ n + 1, ∃ t, core.run k s = .next t ∧ t.inputs = rest ∧ t.busy = false
      ∧ ∃ v : Word, t.resp = .readOk v ∧ v &&& 0x00000001#32 = 0x00000000#32 := by
  obtain ⟨-, -, hbusy, -⟩ := h
  have hb : s.busy = false := Bool.eq_false_iff.mpr fun hb => hbusy.mp hb hs
  have hidle : (s.answered rest gap (.readOk (statusWord s))).seq = .idle := hs
  have hstep := step_poll_busy_hit hin hb
  rw [advance_idle hidle] at hstep
  exact ⟨1, Nat.succ_le_succ (Nat.zero_le n), _, run_succ hstep 0, rfl, hb, _, rfl, by
    rw [statusWord_and_one, hb]; rfl⟩

/-- The POLL for BUSY = 0 is over after at most one read more than the command has phases left. -/
theorem poll_busy_ends {gap : Option Nat} {rest : List Input} (n : Nat) : ∀ s : State, Inv s →
    s.inputs = .poll 0x004#12 0x00000001#32 0x00000000#32 gap :: rest → phasesLeft s ≤ n →
      ∃ k ≤ n + 1, ∃ t, core.run k s = .next t ∧ t.inputs = rest ∧ t.busy = false
        ∧ ∃ v : Word, t.resp = .readOk v ∧ v &&& 0x00000001#32 = 0x00000000#32 := by
  induction n with
  | zero => exact fun s h hin hn => poll_hit 0 h hin ((phasesLeft_eq_zero_iff s).mp (Nat.le_zero.mp hn))
  | succ n ih =>
    intro s h hin hn
    by_cases hs : s.seq = .idle
    · exact poll_hit (n + 1) h hin hs
    · obtain ⟨-, -, hbusy, -⟩ := id h
      have hstep := step_poll_busy_miss hin (hbusy.mpr hs)
      have hlt := phasesLeft_advanceBy_lt (s := s.answered rest gap (.readOk (statusWord s))) h hs gap
      obtain ⟨m, hm⟩ := advanceBy_eq_runPhases (gap.map (· + 1)) (s.answered rest gap (.readOk (statusWord s)))
      rw [hm] at hstep hlt
      have hinv : Inv (runPhases m (s.answered rest gap (.readOk (statusWord s)))) :=
        inv_runPhases (s := s.answered rest gap (.readOk (statusWord s))) h m
      obtain ⟨k, hk, t, ht⟩ :=
        ih { runPhases m (s.answered rest gap (.readOk (statusWord s))) with inputs := s.inputs } hinv hin
          (Nat.le_of_lt_succ (hlt.trans_le hn))
      exact ⟨k + 1, Nat.succ_le_succ hk, t, by rw [run_succ hstep]; exact ht⟩

end Sys2Proof.Machine

open Sys2Proof Sys2Proof.Machine

/-- Settles O27: a missed read leaves fewer phases, of which a command has at most 113. -/
theorem pollOfBusyEnds : Obligations.PollOfBusyEnds := fun s _ _ hinv hin =>
  poll_busy_ends Config.maxPhases s hinv hin (phasesLeft_le_of_inv hinv)

/-- Settles O47: LDKEY is a run of KEY writes from KEY0 on. -/
theorem loadKeyStoresKeyBytes : Obligations.LoadKeyStoresKeyBytes := by
  intro k bytes s rest hlen hidle hin
  have hnk : k.nk ≤ 8 := by cases k <;> decide
  obtain ⟨t, hrun, keyw, quiet, resp, rfl, hkeyw⟩ := run_writeRun_key (i := 0) hlen (by omega) hidle hin
  refine ⟨_, hrun, rfl, hidle, fun j hj => ?_, (keyLoaded_iff _ _).mpr fun n hn => ?_, fun n hn => ?_, fun a ha => ?_,
    rfl, rfl, rfl, rfl, rfl, rfl⟩
  · exact Memory.read_writeBytes s.mem keyBase bytes (hlen ▸ hj)
  · rw [hkeyw]
    simp [hn]
  · rw [hkeyw]
    simp [Nat.not_lt.mpr hn]
  · exact Memory.read_writeBytes_outside s.mem 0x020 bytes (hlen ▸ ha)

end

section
/-! Single steps: a rejected mode command and its STATUS word, an illegal access, a read of MSG while a command runs, a
reset edge, and the CMD write of a decoded word. -/

namespace Sys2Proof.Machine

/-- An aligned offset in MSG's range is an MSG register's (20_memory.md R71). -/
theorem isMsg_regAt_of_range {off : Offset} (hal : off.toNat % 4 = 0) (hlo : 0x080 ≤ off.toNat) (hhi : off.toNat < 0x0C0) :
    (regAt off).isMsg = true := by
  rw [regAt_of_toNat_msg (k := (off.toNat - 0x080) / 4) (by omega) (by omega)]
  rfl

/-- The step that serves a CMD write of a word that decodes to a command (43_modes.md R230). -/
theorem step_cmd {s : State} {v : Word} {i : Instr} {gap : Option Nat} {rest : List Input}
    (hin : s.inputs = wr 0x000#12 v gap :: rest) (hv : decode v = .command i) :
    step s = exec i (s.answered rest gap .writeOk) := by
  have hreg : regAt 0x000#12 = .cmd := rfl
  rw [step_write rfl hin, hostWrite, hreg]
  change commandWrite v _ = _
  rw [commandWrite, hv]

theorem statusWord_rejected {s : State} (hb : s.busy = false) (c : Cause) :
    statusWord (s.rejected c) = 0#24 ++ causeCode c ++ 0x6#4 := by
  have hbits : statusWord (s.rejected c)
      = 0#24 ++ causeCode c ++ 0#1 ++ BitVec.ofBool true ++ BitVec.ofBool true ++ BitVec.ofBool s.busy := rfl
  rw [hbits, hb]
  cases c <;> rfl

end Sys2Proof.Machine

open Sys2Proof Sys2Proof.Machine

/-- Settles O23: KSIZE = 0b11 resolves to no strength, for each of the four mode commands. -/
theorem modeCommandWithBadKsizeRejects : Obligations.ModeCommandWithBadKsizeRejects := by
  intro s hb i hi
  have hresolve : i.resolve = .reject .badKsize := by
    simp only [List.mem_cons, List.not_mem_nil, or_false] at hi
    obtain rfl | rfl | rfl | rfl := hi <;> rfl
  rw [exec_eq_command, hresolve, command_reject hb]
  rfl

/-- Settles O24: the outcome bits of a rejection are 0x6, under the cause's code. -/
theorem rejectionStatusWords : Obligations.RejectionStatusWords := by
  intro s hb p hp
  rw [statusWord_rejected hb]
  simp only [List.mem_cons, List.not_mem_nil, or_false] at hp
  obtain rfl | rfl | rfl | rfl | rfl | rfl := hp <;> rfl

/-- Settles O34: `serve` answers an access that is not legal before it looks at anything else. -/
theorem illegalAccessIsBusError : Obligations.IllegalAccessIsBusError := by
  intro s a gap rest hillegal hin
  have hlegal : a.legal = false := by
    rw [Bool.eq_false_iff, Ne, legal_iff]
    tauto
  rw [step_access hin, serve, hlegal]
  rfl

/-- Settles O36: a legal read of an MSG register while BUSY = 1 is the first case of `hostRead`. -/
theorem msgReadWhileBusyIsFree : Obligations.MsgReadWhileBusyIsFree := by
  intro s off gap rest hb hal hlo hhi hin
  have hmsg := isMsg_regAt_of_range hal hlo hhi
  have hfree : ((s.take rest gap).busy && (regAt off).isMsg) = true := by rw [hmsg, State.take_busy, hb]; rfl
  rw [step_access hin, serve, legal_readAccess hal]
  change Host.Outcome.next (advance (hostRead off (s.take rest gap))) = _
  rw [hostRead, if_pos hfree]
  rfl

/-- Settles O41: the next state is the reset state but for the host's side. -/
theorem resetEdgeAborts : Obligations.ResetEdgeAborts := fun s rest hin =>
  ⟨s.afterReset rest, by rw [step, hin], Memory.read_nil, rfl, rfl, rfl, rfl, rfl, rfl, rfl, rfl, rfl, rfl, rfl⟩

/-- Settles O46: a word placed by `withFetchWord` is a CMD write like any other, and decodes to its command. -/
theorem stepRunsDecodedCommand : Obligations.StepRunsDecodedCommand := by
  refine ⟨fun s v i gap rest => step_cmd, fun s i => ?_⟩
  have hword : BitVec.ofNat 32 ((encode i).toNat % 2 ^ 32) = encode i := by
    rw [Nat.mod_eq_of_lt (encode i).isLt, BitVec.ofNat_toNat, BitVec.setWidth_eq]
  exact step_cmd (s := s.withFetchWord 32 (encode i).toNat) rfl (by rw [hword, decode_encode])

end

section
/-! SUPPORT. The key schedule that the engine computes: its words come from the key alone (41_key_schedule.md R187), so that
the rounds that use them do not see what W held before; and an accepted command up to its first round (R186). -/

namespace Sys2Proof.Machine

/-! ### Schedules that agree on a strength's words -/

/-- The words of the finished schedule come from the key words alone. -/
theorem scheduleWord_keyExpansion_congr {k : Strength} {key key' : Nat → Word} (w w' : Schedule)
    (hkey : ∀ i < k.nk, key i = key' i) {i : Nat} (hi : i < k.words) :
    scheduleWord (keyExpansion k key w) i = scheduleWord (keyExpansion k key' w') i := by
  induction i using Nat.strong_induction_on with
  | _ i ih =>
    by_cases hlt : i < k.nk
    · rw [scheduleWord_keyExpansion_of_lt _ _ hlt, scheduleWord_keyExpansion_of_lt _ _ hlt, hkey i hlt]
    · have hle : k.nk ≤ i := Nat.not_lt.mp hlt
      rw [scheduleWord_keyExpansion_of_le _ _ hle hi, scheduleWord_keyExpansion_of_le _ _ hle hi]
      exact expandWord_congr k hle fun j hj => ih j hj (hj.trans hi)

/-- Two schedules with the same words for `nr` rounds. -/
def SameWords (nr : Nat) (w w' : Schedule) : Prop := ∀ i < 4 * (nr + 1), scheduleWord w i = scheduleWord w' i

section
variable {nr : Nat} {w w' : Schedule} (h : SameWords nr w w')
include h

theorem addRoundKey_congr {r : Nat} (hr : r ≤ nr) (x : Block) : addRoundKey w r x = addRoundKey w' r x := by
  rw [addRoundKey, roundKey, h (4 * r) (by omega), h (4 * r + 1) (by omega), h (4 * r + 2) (by omega),
    h (4 * r + 3) (by omega)]
  rfl

theorem fullRounds_congr {n : Nat} (hn : n ≤ nr) (x : Block) : fullRounds w n x = fullRounds w' n x := by
  induction n with
  | zero => rfl
  | succ n ih => rw [fullRounds, fullRounds, fullRound, addRoundKey_congr h hn, ih (Nat.le_of_succ_le hn), fullRound]

theorem invRounds_congr {n : Nat} (hn : n ≤ nr) (x : Block) : invRounds w n x = invRounds w' n x := by
  induction n generalizing x with
  | zero => rfl
  | succ n ih => rw [invRounds, invRounds, invRound, addRoundKey_congr h hn, ih (Nat.le_of_succ_le hn), invRound]

theorem cipher_congr (x : Block) : cipher w nr x = cipher w' nr x := by
  rw [cipher, finalRound, addRoundKey_congr h (Nat.le_refl nr), fullRounds_congr h (Nat.sub_le nr 1),
    addRoundKey_congr h (Nat.zero_le nr), cipher, finalRound]

theorem invCipher_congr (x : Block) : invCipher w nr x = invCipher w' nr x := by
  rw [invCipher, invFinalRound, addRoundKey_congr h (Nat.zero_le nr), invRounds_congr h (Nat.sub_le nr 1),
    addRoundKey_congr h (Nat.le_refl nr), invCipher, invFinalRound]

end

/-! ### The expansion phases (41_key_schedule.md R186) -/

/-- Expansion phases before the last one, from EXPAND(i) on. -/
theorem runPhases_expand {s : State} {i : Nat} (hs : s.seq = .expand i) {n : Nat} (hn : i + n < s.strength.words) :
    runPhases n s = { s with w := expandFrom s.strength n i s.w, seq := .expand (i + n) } := by
  induction n with
  | zero => rw [runPhases_zero, expandFrom, Nat.add_zero, ← hs]
  | succ n ih =>
    rw [runPhases_add n 1, ih (by omega), runPhases_succ, runPhases_zero, phaseStep_expand rfl, expandPhase,
      if_pos (show i + n + 1 < s.strength.words by omega), expandFrom_succ]
    rfl

/-- All expansion phases: the schedule is complete and the sequencer is at the first block's first stage. -/
theorem runPhases_expansion {s : State} {i : Nat} (hs : s.seq = .expand i) (hi : i < s.strength.words) :
    runPhases (s.strength.words - i) s
      = { s with w := expandFrom s.strength (s.strength.words - i) i s.w,
                 seq := .block (firstBlock s.op s.nblk) (firstStage s.op.dir s.strength.nr) } := by
  obtain ⟨n, hn⟩ : ∃ n, s.strength.words - i = n + 1 := ⟨s.strength.words - i - 1, by omega⟩
  rw [hn, runPhases_add n 1, runPhases_expand hs (by omega), runPhases_succ, runPhases_zero, phaseStep_expand rfl,
    expandPhase, if_neg (show ¬ i + n + 1 < s.strength.words by omega), expandFrom_succ]
  rfl

theorem Strength.nk_lt_words (k : Strength) : k.nk < k.words := by cases k <;> decide

/-- An accepted command after its expansion phases. -/
theorem runPhases_accept (d : Resolved) (s : State) :
    runPhases (d.strength.words - d.strength.nk) (accept d s)
      = { accept d s with
          w := keyExpansion d.strength (keyWord s.mem) s.w
          seq := .block (firstBlock d.op (blockCount s.len)) (firstStage d.op.dir d.strength.nr) } :=
  runPhases_expansion (s := accept d s) rfl (Strength.nk_lt_words d.strength)

theorem firstStage_eq_ite (d : Dir) (nr : Nat) : firstStage d nr = if d = .dec then nr else 0 := by
  cases d <;> rfl

/-! ### Acceptance (43_modes.md R230) -/

theorem command_ready {d : Resolved} {s : State} (h : Ready d s) :
    command (.command d) s = advance (accept d s.clearOutcome) := by
  obtain ⟨hb, hv⟩ := (ready_iff d s).mp h
  exact command_accept hb hv

/-- The operation a command resolves to is its own. -/
theorem op_of_resolve {i : Instr} {d : Resolved} (h : i.resolve = .command d) : d.op = i.op := by
  have hmode (op : Op) (ksize : BitVec 2) (h : resolveMode op ksize = .command d) : d.op = op := by
    unfold resolveMode at h
    cases hk : strengthOf ksize with
    | none => simp [hk] at h
    | some k =>
      simp only [hk, Resolution.command.injEq] at h
      rw [← h]
  have hblk (op : Op) (k : Strength) (h : resolveBlk op k = .command d) : d.op = op := by
    rw [resolveBlk, Resolution.command.injEq] at h
    rw [← h]
  cases i with
  | ecbEnc | ecbDec | cbcEnc | cbcDec => exact hmode _ _ h
  | blkEnc128 | blkEnc192 | blkEnc256 | blkDec128 | blkDec192 | blkDec256 => exact hblk _ _ h

end Sys2Proof.Machine

open Sys2Proof Sys2Proof.Machine

/-- Settles O8: by strong induction on the word's index, the key words being the same. -/
theorem scheduleIgnoresEarlierWords : Obligations.ScheduleIgnoresEarlierWords := fun _ _ w w' _ hi =>
  scheduleWord_keyExpansion_congr w w' (fun _ _ => rfl) hi

/-- Settles O9: the state after each number of expansion phases is known, and its schedule is `scheduleOf`'s. -/
theorem expansionCompletesBeforeFirstRound : Obligations.ExpansionCompletesBeforeFirstRound := by
  intro d s
  rw [runPhases_accept, firstBlock, firstStage_eq_ite]
  refine ⟨fun j hj => ?_, rfl, rfl, fun i hi => scheduleWord_keyExpansion_congr _ _ (fun _ _ => rfl) hi⟩
  rw [runPhases_expand (s := accept d s) rfl (by simp only [accept_strength]; omega)]

/-- Settles O11: at gap 0 the engine makes no phase after acceptance. -/
theorem acceptedCommandIsLatched : Obligations.AcceptedCommandIsLatched := by
  intro i d s hresolve hready hquiet
  have hnow : advance (accept d s.clearOutcome) = accept d s.clearOutcome := by
    rw [advance, accept_quiet, State.clearOutcome_quiet, hquiet]
    rfl
  refine ⟨accept d s.clearOutcome, by rw [exec_eq_command, hresolve, command_ready hready, hnow], rfl, rfl, rfl, rfl,
    op_of_resolve hresolve, rfl, rfl, rfl, rfl, rfl, rfl, rfl, rfl, rfl, rfl, rfl, rfl, rfl⟩

end

section
/-! SUPPORT. What an accepted command makes of its message (43_modes.md R233 - R242, R247): each block's stages add up to its
result under the mode, and the blocks are stored one after the other, up to completion. -/

namespace Sys2Proof.Machine

/-! ### The result of each block -/

/-- Cipher or InvCipher, by direction (42_block_cipher.md R200, R203). -/
def blockCipher (d : Dir) (w : Schedule) (nr : Nat) (x : Block) : Block :=
  match d with
  | .enc => cipher w nr x
  | .dec => invCipher w nr x

/-- CBC encryption of block b: the IV or the ciphertext before it is XORed in (43_modes.md R235). -/
def cbcEncBlock (w : Schedule) (nr : Nat) (m : Memory) : Nat → Block
  | 0 => cipher w nr ((msgBlock m 0).xor (ivBlock m))
  | b + 1 => cipher w nr ((msgBlock m (b + 1)).xor (cbcEncBlock w nr m b))

/-- CBC decryption of block b: the IV or the ciphertext before it is XORed in (43_modes.md R236). -/
def cbcDecBlock (w : Schedule) (nr : Nat) (m : Memory) (b : Nat) : Block :=
  (invCipher w nr (msgBlock m b)).xor (if b = 0 then ivBlock m else msgBlock m (b - 1))

/-- What an operation makes of block b of the message in `m` (43_modes.md R233 - R242). -/
def resultBlock (op : Op) (w : Schedule) (nr : Nat) (m : Memory) (b : Nat) : Block :=
  match op.mode, op.dir with
  | .cbc, .enc => cbcEncBlock w nr m b
  | .cbc, .dec => cbcDecBlock w nr m b
  | .ecb, d | .blk, d => blockCipher d w nr (msgBlock m b)

theorem cbcEncBlock_eq (w : Schedule) (nr : Nat) (m : Memory) (b : Nat) :
    cbcEncBlock w nr m b
      = cipher w nr ((msgBlock m b).xor (if b = 0 then ivBlock m else cbcEncBlock w nr m (b - 1))) := by
  cases b <;> rfl

theorem resultBlock_of_not_cbc {op : Op} (h : op.mode ≠ .cbc) (w : Schedule) (nr : Nat) (m : Memory) (b : Nat) :
    resultBlock op w nr m b = blockCipher op.dir w nr (msgBlock m b) := by
  unfold resultBlock
  cases hmode : op.mode with
  | cbc => exact absurd hmode h
  | ecb | blk => rfl

theorem blockCipher_congr {d : Dir} {nr : Nat} {w w' : Schedule} (h : SameWords nr w w') (x : Block) :
    blockCipher d w nr x = blockCipher d w' nr x := by
  cases d with
  | enc => exact cipher_congr h x
  | dec => exact invCipher_congr h x

theorem cbcDecBlock_congr {nr : Nat} {w w' : Schedule} {m m' : Memory} {b : Nat} (hw : SameWords nr w w')
    (hiv : ivBlock m = ivBlock m') (hmsg : msgBlock m b = msgBlock m' b)
    (hprev : b ≠ 0 → msgBlock m (b - 1) = msgBlock m' (b - 1)) : cbcDecBlock w nr m b = cbcDecBlock w' nr m' b := by
  rw [cbcDecBlock, cbcDecBlock, hiv, hmsg, invCipher_congr hw]
  split
  next => rfl
  next hb => rw [hprev hb]

/-- A result depends on the words of the schedule, the blocks up to its own, and for CBC the IV. -/
theorem resultBlock_congr {op : Op} {nr : Nat} {w w' : Schedule} {m m' : Memory} {b : Nat} (hw : SameWords nr w w')
    (hiv : op.mode = .cbc → ivBlock m = ivBlock m') (hmsg : ∀ c ≤ b, msgBlock m c = msgBlock m' c) :
    resultBlock op w nr m b = resultBlock op w' nr m' b := by
  by_cases hmode : op.mode = .cbc
  · have hiv := hiv hmode
    unfold resultBlock
    rw [hmode]
    cases op.dir with
    | enc =>
      change cbcEncBlock w nr m b = cbcEncBlock w' nr m' b
      induction b with
      | zero => rw [cbcEncBlock, cbcEncBlock, hiv, hmsg 0 (Nat.le_refl 0), cipher_congr hw]
      | succ b ih =>
        rw [cbcEncBlock, cbcEncBlock, hmsg (b + 1) (Nat.le_refl _), ih fun c hc => hmsg c (Nat.le_succ_of_le hc),
          cipher_congr hw]
    | dec =>
      exact cbcDecBlock_congr hw hiv (hmsg b (Nat.le_refl b)) fun _ => hmsg (b - 1) (Nat.sub_le b 1)
  · rw [resultBlock_of_not_cbc hmode, resultBlock_of_not_cbc hmode, hmsg b (Nat.le_refl b), blockCipher_congr hw]

/-! ### The blocks stored one after the other -/

/-- `n` blocks stored in the order of the operation, from block b on (43_modes.md R245). -/
def storeBlocks (op : Op) (r : Nat → Block) : Nat → Nat → Memory → Memory
  | 0, _, m => m
  | n + 1, b, m => storeBlocks op r n (nextBlock op b) (writeMsgBlock m b (r b))

/-- A block that holds its result keeps it. -/
theorem msgBlock_storeBlocks_of_eq {op : Op} {r : Nat → Block} {n b c : Nat} {m : Memory} (h : msgBlock m c = r c) :
    msgBlock (storeBlocks op r n b m) c = r c := by
  induction n generalizing b m with
  | zero => exact h
  | succ n ih =>
    refine ih ?_
    by_cases hcb : c = b
    · rw [hcb, msgBlock_writeMsgBlock_same]
    · rw [msgBlock_writeMsgBlock_other m _ hcb, h]

theorem blocksAfter_injective {op : Op} {nblk b c : Nat} (hb : b < nblk) (hc : c < nblk)
    (h : blocksAfter op nblk b = blocksAfter op nblk c) : b = c := by
  simp only [blocksAfter] at h
  split at h <;> omega

theorem blocksAfter_eq_zero_iff {op : Op} {nblk b : Nat} (hb : b < nblk) :
    blocksAfter op nblk b = 0 ↔ b = finalBlock op nblk := by
  simp only [blocksAfter, finalBlock]
  split <;> omega

/-- Every block from b on in the operation's order gets its result. -/
theorem msgBlock_storeBlocks {op : Op} {r : Nat → Block} {nblk n b c : Nat} {m : Memory} (hb : b < nblk) (hc : c < nblk)
    (hn : blocksAfter op nblk b + 1 = n) (hle : blocksAfter op nblk c ≤ blocksAfter op nblk b) :
    msgBlock (storeBlocks op r n b m) c = r c := by
  induction n generalizing b m with
  | zero => omega
  | succ n ih =>
    by_cases hcb : c = b
    · subst hcb
      rw [storeBlocks]
      exact msgBlock_storeBlocks_of_eq (msgBlock_writeMsgBlock_same m c (r c))
    · have hne : blocksAfter op nblk c ≠ blocksAfter op nblk b := fun h => hcb (blocksAfter_injective hc hb h)
      have hnext : b ≠ finalBlock op nblk := fun h => by
        have hzero := (blocksAfter_eq_zero_iff hb).mpr h
        omega
      have hafter := blocksAfter_nextBlock hb hnext
      exact ih (nextBlock_lt hb hnext) (by omega) (by omega)

/-- The whole message gets its results. -/
theorem msgBlock_storeBlocks_all {op : Op} {r : Nat → Block} {nblk c : Nat} {m : Memory} (hc : c < nblk) :
    msgBlock (storeBlocks op r nblk (firstBlock op nblk) m) c = r c := by
  have hpos : 1 ≤ nblk := Nat.one_le_of_lt hc
  have hfirst := blocksAfter_firstBlock (op := op) hpos
  have hlt := blocksAfter_lt (op := op) hc
  exact msgBlock_storeBlocks (firstBlock_lt op hpos) hc hfirst (by omega)

/-! ### One block's phases -/

/-- Block b loaded and taken through its stages (42_block_cipher.md R200, R203). -/
def transformBlock (b : Nat) (s : State) : State :=
  { loadBlock b s with
    st := blockCipher s.op.dir s.w s.strength.nr (loadBlock b s).st
    seq := .block b (lastStage s.op.dir s.strength.nr) }

/-- The state with block b's result in st. -/
def workBlock (b : Nat) (s : State) : State := sealBlock (transformBlock b s)

/-- Working a block touches st, chain and the sequencer alone. -/
theorem workBlock_eq (b : Nat) (s : State) :
    workBlock b s = { s with st := (workBlock b s).st, chain := (workBlock b s).chain, seq := (workBlock b s).seq } := by
  unfold workBlock
  rw [sealBlock_eq, transformBlock, loadBlock_eq]

/-- A block's stages from its first one, and its end (10_state.md R48). -/
theorem runPhases_block {s : State} {b : Nat} (hs : s.seq = .block b (firstStage s.op.dir s.strength.nr)) :
    runPhases (s.strength.nr + 1) s
      = if b = finalBlock s.op s.nblk then (workBlock b s).goto .finish
        else (storeBlock b (workBlock b s)).goto
          (.block (nextBlock s.op b) (firstStage s.op.dir s.strength.nr)) := by
  have hstages : runPhases (s.strength.nr + 1) s = endBlock b (transformBlock b s) := by
    unfold transformBlock
    cases hd : s.op.dir with
    | enc => rw [hd] at hs; exact runPhases_cipher hd hs
    | dec => rw [hd] at hs; exact runPhases_invCipher hd hs
  have hkeep : EngineKeeps s (transformBlock b s) := (engineKeeps_loadBlock b s).trans (by constructor <;> rfl)
  rw [hstages, endBlock, hkeep.op, hkeep.strength, hkeep.nblk]
  rfl

/-- The sequencer stands at the first stage of block b, in a run that found the message `m`: blocks from b on and the IV are
as in `m`, and CBC_ENC has the ciphertext before b in the chaining register. -/
structure BlockStart (m : Memory) (s : State) (b : Nat) : Prop where
  seq : s.seq = .block b (firstStage s.op.dir s.strength.nr)
  lt : b < s.nblk
  ahead : ∀ c < s.nblk, blocksAfter s.op s.nblk c ≤ blocksAfter s.op s.nblk b → msgBlock s.mem c = msgBlock m c
  iv : ivBlock s.mem = ivBlock m
  chain : s.op = .cbcEnc → b ≠ 0 → s.chain = resultBlock s.op s.w s.strength.nr m (b - 1)

/-- The work on a block is its result, which CBC_ENC chains. -/
theorem workBlock_result {m : Memory} {s : State} {b : Nat} (h : BlockStart m s b) :
    (workBlock b s).st = resultBlock s.op s.w s.strength.nr m b
      ∧ (s.op = .cbcEnc → (workBlock b s).chain = resultBlock s.op s.w s.strength.nr m b) := by
  have hmsg := h.ahead b h.lt (Nat.le_refl _)
  cases hop : s.op with
  | ecbEnc | ecbDec | blkEnc128 | blkEnc192 | blkEnc256 | blkDec128 | blkDec192 | blkDec256 =>
    refine ⟨?_, fun h => absurd h (by decide)⟩
    simp [workBlock, sealBlock, transformBlock, loadBlock, hop, hmsg, resultBlock, Op.mode, Op.dir]
  | cbcEnc =>
    have hchain := h.chain hop
    rw [hop] at hchain
    have hst : (workBlock b s).st = resultBlock .cbcEnc s.w s.strength.nr m b := by
      simp only [resultBlock, Op.mode, Op.dir] at hchain ⊢
      rw [cbcEncBlock_eq]
      simp only [workBlock, sealBlock, transformBlock, loadBlock, hop, hmsg, h.iv, Op.dir, blockCipher]
      split
      next => rfl
      next hb => rw [hchain hb]
    have hcopy : (workBlock b s).chain = (workBlock b s).st := by
      simp [workBlock, sealBlock, transformBlock, loadBlock, hop]
    exact ⟨hst, fun _ => hcopy.trans hst⟩
  | cbcDec =>
    refine ⟨?_, fun h => absurd h (by decide)⟩
    have hbefore : msgBlock s.mem (b - 1) = msgBlock m (b - 1) := by
      have hlt := h.lt
      exact h.ahead (b - 1) (by omega) (by simp [blocksAfter, hop])
    simp [workBlock, sealBlock, transformBlock, loadBlock, hop, hmsg, hbefore, h.iv, resultBlock, cbcDecBlock, Op.mode, Op.dir,
      blockCipher]

/-- Sixteen bytes read the same are the same block. -/
theorem readBlock_congr {m m' : Memory} {a : Nat} (h : ∀ c, a ≤ c → c < a + 16 → m'.read c = m.read c) :
    readBlock m' a = readBlock m a := by
  simp (disch := omega) only [readBlock, readColumn, h]

/-- IV lies below MSG. -/
theorem ivBlock_congr {m m' : Memory} (h : ∀ a < msgBase, m'.read a = m.read a) : ivBlock m' = ivBlock m := by
  have hbase : ivBase = 0x040 ∧ msgBase = 0x080 := ⟨rfl, rfl⟩
  exact readBlock_congr fun c _ hc => h c (by omega)

/-- After a block that is not the last, the sequencer stands at the next block, the result stored. -/
theorem blockStart_next {m : Memory} {s : State} {b : Nat} (h : BlockStart m s b) (hb : b ≠ finalBlock s.op s.nblk) :
    BlockStart m ((storeBlock b (workBlock b s)).goto
      (.block (nextBlock s.op b) (firstStage s.op.dir s.strength.nr))) (nextBlock s.op b) := by
  obtain ⟨-, hchain⟩ := workBlock_result h
  have hafter := blocksAfter_nextBlock h.lt hb
  have hread (a : Nat) (ha : a < msgBase) (x : Block) : (writeMsgBlock s.mem b x).read a = s.mem.read a :=
    read_writeMsgBlock_outside s.mem b x (.inl (by omega))
  rw [workBlock_eq]
  refine ⟨rfl, nextBlock_lt h.lt hb, fun c hc hle => ?_, (ivBlock_congr fun a ha => hread a ha _).trans h.iv,
    fun hop _ => ?_⟩
  · have hle : blocksAfter s.op s.nblk c ≤ blocksAfter s.op s.nblk (nextBlock s.op b) := hle
    have hcb : c ≠ b := by
      rintro rfl
      omega
    exact (msgBlock_writeMsgBlock_other s.mem _ hcb).trans (h.ahead c hc (by omega))
  · have hop : s.op = .cbcEnc := hop
    have hprev : nextBlock s.op b - 1 = b := by
      rw [nextBlock, if_neg (by simp [hop])]
      rfl
    rw [hprev]
    exact hchain hop

/-- The blocks from b on and FINISH store the results of all of them. -/
theorem mem_runPhases_blocks {m : Memory} {s : State} {b n : Nat} (h : BlockStart m s b)
    (hn : blocksAfter s.op s.nblk b = n) :
    (runPhases ((n + 1) * (s.strength.nr + 1) + 1) s).mem
      = storeBlocks s.op (resultBlock s.op s.w s.strength.nr m) (n + 1) b s.mem := by
  induction n generalizing s b with
  | zero =>
    obtain ⟨hst, -⟩ := workBlock_result h
    have hfinal := (blocksAfter_eq_zero_iff h.lt).mp hn
    rw [Nat.zero_add, Nat.one_mul, runPhases_add, runPhases_block h.seq, if_pos hfinal, runPhases_succ, runPhases_zero,
      phaseStep_finish rfl, finishPhase, storeBlocks, storeBlocks, ← hst, workBlock_eq]
    change writeMsgBlock s.mem (finalBlock s.op s.nblk) _ = writeMsgBlock s.mem b _
    rw [← hfinal]
    rfl
  | succ n ih =>
    obtain ⟨hst, -⟩ := workBlock_result h
    have hb : b ≠ finalBlock s.op s.nblk := fun hfinal => by
      rw [(blocksAfter_eq_zero_iff h.lt).mpr hfinal] at hn
      omega
    have hafter := blocksAfter_nextBlock h.lt hb
    have hnext := blockStart_next h hb
    rw [Nat.succ_mul, Nat.add_comm ((n + 1) * _), Nat.add_assoc, runPhases_add, runPhases_block h.seq, if_neg hb,
      storeBlocks, ← hst]
    rw [workBlock_eq] at hnext ⊢
    exact ih hnext (by change blocksAfter s.op s.nblk (nextBlock s.op b) = n; omega)

/-! ### The whole command -/

/-- The phases of an accepted command are those that `commandPhases` counts. -/
theorem phasesLeft_accept (d : Resolved) (s : State) :
    phasesLeft (accept d s) = commandPhases d.strength (blockCount s.len) := rfl

/-- When the host waits, the engine works on to the end of the command. -/
theorem advance_accept {d : Resolved} {s : State} (hv : validate d s = .none) (hmax : d.maxLen ≤ Config.maxLen)
    (hwait : HostWaits (commandPhases d.strength (blockCount s.len)) s) :
    advance (accept d s) = runPhases (commandPhases d.strength (blockCount s.len)) (accept d s) := by
  have hrange := engineInRange_accept hv
  rw [← phasesLeft_accept] at hwait ⊢
  have hrun {n : Nat} (hn : phasesLeft (accept d s) ≤ n) : runPhases n (accept d s) = _ :=
    runPhases_eq_of_phasesLeft_le hrange (by simp) hn
  rw [advance, accept_quiet]
  cases hquiet : s.quiet with
  | none =>
    obtain ⟨-, -, -, hlen⟩ := (validate_eq_none_iff d s).mp hv
    refine hrun (phasesLeft_le_maxPhases hrange.1 fun _ => ?_)
    have hbounds : Config.maxLen = 64 ∧ Config.nblkMax = 4 := ⟨rfl, rfl⟩
    simp only [accept_nblk, blockCount]
    omega
  | some n => exact hrun (hwait n hquiet)

theorem blockStart_accept {d : Resolved} {s : State} (hv : validate d s = .none) :
    BlockStart s.mem (runPhases (d.strength.words - d.strength.nk) (accept d s)) (firstBlock d.op (blockCount s.len)) := by
  rw [runPhases_accept]
  refine ⟨rfl, firstBlock_lt _ (blockCount_pos_of_validate hv), fun _ _ _ => rfl, rfl, fun hop hb => ?_⟩
  have hop : d.op = .cbcEnc := hop
  exact absurd (by rw [firstBlock, if_neg (by simp [hop])]) hb

theorem sameWords_keyExpansion {k : Strength} {key key' : Nat → Word} (w w' : Schedule)
    (hkey : ∀ i < k.nk, key i = key' i) : SameWords k.nr (keyExpansion k key w) (keyExpansion k key' w') :=
  fun _ hi => scheduleWord_keyExpansion_congr w w' hkey hi

/-- The memory at the end of an accepted command: every block's result, stored in the operation's order. -/
theorem mem_runPhases_accept {d : Resolved} {s : State} (hv : validate d s = .none) :
    (runPhases (commandPhases d.strength (blockCount s.len)) (accept d s)).mem
      = storeBlocks d.op (resultBlock d.op (scheduleOf d.strength s.mem) d.strength.nr s.mem) (blockCount s.len)
          (firstBlock d.op (blockCount s.len)) s.mem := by
  have hstart := blockStart_accept hv
  have hfirst := blocksAfter_firstBlock (op := d.op) (blockCount_pos_of_validate hv)
  have hsched : resultBlock d.op (scheduleOf d.strength s.mem) d.strength.nr s.mem
      = resultBlock d.op (keyExpansion d.strength (keyWord s.mem) s.w) d.strength.nr s.mem :=
    funext fun b => resultBlock_congr (sameWords_keyExpansion _ _ fun _ _ => rfl) (fun _ => rfl) fun _ _ => rfl
  rw [commandPhases, Nat.add_assoc, runPhases_add, hsched]
  rw [runPhases_accept] at hstart ⊢
  have hmem := mem_runPhases_blocks hstart rfl
  dsimp only [accept_op, accept_nblk, accept_strength, accept_mem] at hmem
  rwa [hfirst] at hmem

/-- What a completed command is to the state it was accepted in: its outcome, its frame, and its message. -/
structure Completed (d : Resolved) (s t : State) : Prop where
  succeeded : Succeeded t
  registers : RegistersKept s t
  outside : MemoryKeptOutside (blockCount s.len) s t
  result : ∀ b < blockCount s.len,
    msgBlock t.mem b = resultBlock d.op (scheduleOf d.strength s.mem) d.strength.nr s.mem b

/-- An accepted command whose host waits runs all its phases. -/
theorem command_eq_runPhases {d : Resolved} {s : State} (hready : Ready d s) (hmax : d.maxLen ≤ Config.maxLen)
    (hwait : HostWaits (commandPhases d.strength (blockCount s.len)) s) :
    command (.command d) s
      = runPhases (commandPhases d.strength (blockCount s.len)) (accept d s.clearOutcome) := by
  obtain ⟨-, hv⟩ := (ready_iff d s).mp hready
  rw [command_ready hready]
  exact advance_accept (s := s.clearOutcome) hv hmax hwait

theorem command_completed {d : Resolved} {s : State} (hready : Ready d s) (hmax : d.maxLen ≤ Config.maxLen)
    (hwait : HostWaits (commandPhases d.strength (blockCount s.len)) s) : Completed d s (command (.command d) s) := by
  obtain ⟨-, hv⟩ := (ready_iff d s).mp hready
  have hrange : EngineInRange (accept d s.clearOutcome) := engineInRange_accept hv
  rw [command_eq_runPhases hready hmax hwait]
  refine ⟨succeeded_runPhases hrange (by simp) (Nat.le_refl _),
    (engineKeeps_runPhases _ (accept d s.clearOutcome)).registersKept, memoryKeptOutside_runPhases hrange _,
    fun b hb => ?_⟩
  have hmem := mem_runPhases_accept (s := s.clearOutcome) hv
  simp only [State.clearOutcome_len, State.clearOutcome_mem] at hmem
  rw [hmem]
  exact msgBlock_storeBlocks_all hb

theorem maxLen_le_of_resolve {i : Instr} {d : Resolved} (h : i.resolve = .command d) : d.maxLen ≤ Config.maxLen := by
  have hlegal : LegalResolution (.command d) := h ▸ legalResolution_resolve i
  rw [LegalResolution] at hlegal
  rw [hlegal]
  split <;> decide

/-- Every accepted command whose host waits completes. -/
theorem exec_completed {i : Instr} {d : Resolved} {s : State} (hres : i.resolve = .command d) (hready : Ready d s)
    (hwait : HostWaits (commandPhases d.strength (blockCount s.len)) s) :
    ∃ t, exec i s = .next t ∧ Completed d s t :=
  ⟨command (.command d) s, by rw [exec_eq_command, hres],
    command_completed hready (maxLen_le_of_resolve hres) hwait⟩

theorem resolveMode_of_strengthOf {ksize : BitVec 2} {k : Strength} (h : strengthOf ksize = some k) (op : Op) :
    resolveMode op ksize = .command ⟨op, k, 64⟩ := by
  rw [resolveMode, h]
  rfl

/-- A message of at most 16 bytes is one block (43_modes.md R231). -/
theorem blockCount_eq_one {len : Word} (hpos : 1 ≤ len.toNat) (hle : len.toNat ≤ 16) : blockCount len = 1 := by
  rw [blockCount]
  omega

/-- A single-block command completes with its one block transformed. -/
theorem exec_blk_completed {i : Instr} {op : Op} {k : Strength} {s : State} (hres : i.resolve = .command ⟨op, k, 16⟩)
    (hmode : op.mode = .blk) (hready : Ready ⟨op, k, 16⟩ s) (hwait : HostWaits (commandPhases k 1) s) :
    ∃ t, exec i s = .next t ∧ Succeeded t ∧ RegistersKept s t ∧ MemoryKeptOutside 1 s t
      ∧ msgBlock t.mem 0 = blockCipher op.dir (scheduleOf k s.mem) k.nr (msgBlock s.mem 0) := by
  obtain ⟨-, -, -, hpos, hle⟩ := id hready
  have hone := blockCount_eq_one hpos hle
  obtain ⟨t, ht, hsucc, hreg, hout, hresult⟩ := exec_completed hres hready (by rw [hone]; exact hwait)
  rw [hone] at hout hresult
  refine ⟨t, ht, hsucc, hreg, hout, ?_⟩
  rw [hresult 0 Nat.one_pos]
  exact resultBlock_of_not_cbc (by rw [hmode]; decide) _ _ _ _

end Sys2Proof.Machine

open Sys2Proof Sys2Proof.Machine

/-- Settles O12: the result of each block is its Cipher. -/
theorem ecbEncTransformsEveryBlock : Obligations.EcbEncTransformsEveryBlock := by
  intro ksize k s hk hready hwait
  obtain ⟨t, ht, hsucc, hreg, hout, hresult⟩ :=
    exec_completed (i := .ecbEnc ksize) (resolveMode_of_strengthOf hk .ecbEnc) hready hwait
  exact ⟨t, ht, hsucc, hreg, hout, hresult⟩

/-- Settles O13: the result of each block is its InvCipher. -/
theorem ecbDecTransformsEveryBlock : Obligations.EcbDecTransformsEveryBlock := by
  intro ksize k s hk hready hwait
  obtain ⟨t, ht, hsucc, hreg, hout, hresult⟩ :=
    exec_completed (i := .ecbDec ksize) (resolveMode_of_strengthOf hk .ecbDec) hready hwait
  exact ⟨t, ht, hsucc, hreg, hout, hresult⟩

/-- Settles O14: the ciphertext before a block is the result before it. -/
theorem cbcEncChainsCiphertext : Obligations.CbcEncChainsCiphertext := by
  intro ksize k s hk hready hwait
  obtain ⟨t, ht, hsucc, hreg, hout, hresult⟩ :=
    exec_completed (i := .cbcEnc ksize) (resolveMode_of_strengthOf hk .cbcEnc) hready hwait
  refine ⟨t, ht, hsucc, hreg, hout, fun b hb => ?_⟩
  have hblock : ∀ c < blockCount s.len, msgBlock t.mem c = cbcEncBlock (scheduleOf k s.mem) k.nr s.mem c := hresult
  rw [hblock b hb, hblock (b - 1) (by omega)]
  exact cbcEncBlock_eq _ _ _ _

/-- Settles O15: the result of each block is in terms of the message as it was. -/
theorem cbcDecUsesOriginalCiphertext : Obligations.CbcDecUsesOriginalCiphertext := by
  intro ksize k s hk hready hwait
  obtain ⟨t, ht, hsucc, hreg, hout, hresult⟩ :=
    exec_completed (i := .cbcDec ksize) (resolveMode_of_strengthOf hk .cbcDec) hready hwait
  exact ⟨t, ht, hsucc, hreg, hout, hresult⟩

/-- Settles O16: each is a single-block command in the forward direction. -/
theorem blkEncTransformsFirstBlock : Obligations.BlkEncTransformsFirstBlock := by
  intro ksize s p hp hready hwait
  have hblk : p.1.resolve = .command ⟨p.2.1, p.2.2, 16⟩ ∧ p.2.1.mode = .blk ∧ p.2.1.dir = .enc := by
    simp only [List.mem_cons, List.not_mem_nil, or_false] at hp
    obtain rfl | rfl | rfl := hp <;> exact ⟨rfl, rfl, rfl⟩
  obtain ⟨hres, hmode, hdir⟩ := hblk
  have hdone := exec_blk_completed hres hmode hready hwait
  rwa [hdir] at hdone

/-- Settles O17: each is a single-block command in the inverse direction. -/
theorem blkDecTransformsFirstBlock : Obligations.BlkDecTransformsFirstBlock := by
  intro ksize s p hp hready hwait
  have hblk : p.1.resolve = .command ⟨p.2.1, p.2.2, 16⟩ ∧ p.2.1.mode = .blk ∧ p.2.1.dir = .dec := by
    simp only [List.mem_cons, List.not_mem_nil, or_false] at hp
    obtain rfl | rfl | rfl := hp <;> exact ⟨rfl, rfl, rfl⟩
  obtain ⟨hres, hmode, hdir⟩ := hblk
  have hdone := exec_blk_completed hres hmode hready hwait
  rwa [hdir] at hdone

end

section
/-! SUPPORT. Two runs against each other: a decryption after its encryption (43_modes.md R246), two messages that differ in a
bit (R248), two states with the same operands (30_encoding.md R107), and two that differ in the internal storage alone
(10_state.md R50). -/

namespace Sys2Proof.Machine

/-! ### Blocks and their bytes -/

/-- A message byte is a byte of its block. -/
theorem msgByte_eq_getD (m : Memory) (b : Nat) {n : Nat} (hn : n < 16) :
    msgByte m (16 * b + n) = (msgBlock m b).bytes.getD n 0#8 := by
  interval_cases n <;> rfl

theorem msgByte_eq_of_msgBlock_eq {m m' : Memory} {b n : Nat} (hn : n < 16) (h : msgBlock m' b = msgBlock m b) :
    msgByte m' (16 * b + n) = msgByte m (16 * b + n) := by
  rw [msgByte_eq_getD m' b hn, msgByte_eq_getD m b hn, h]

theorem getD_bytes_xor (x y : Block) {n : Nat} (hn : n < 16) :
    (x.xor y).bytes.getD n 0#8 = x.bytes.getD n 0#8 ^^^ y.bytes.getD n 0#8 := by
  interval_cases n <;> rfl

theorem Block.xor_xor_cancel (x y : Block) : (x.xor y).xor y = x := by
  simp only [Block.xor, Column.xor_xor_cancel]

theorem Block.xor_right_cancel {x y z : Block} (h : x.xor z = y.xor z) : x = y := by
  rw [← Block.xor_xor_cancel x z, h, Block.xor_xor_cancel]

theorem invCipher_injective (w : Schedule) (nr : Nat) : Function.Injective (invCipher w nr) :=
  Function.LeftInverse.injective (cipher_invCipher w nr)

/-! ### The operands that a result reads -/

/-- The key words of a strength are bytes below MSG (20_memory.md R71). -/
theorem sameWords_scheduleOf {k : Strength} {m m' : Memory}
    (h : ∀ j < 4 * k.nk, keyByte m' j = keyByte m j) : SameWords k.nr (scheduleOf k m') (scheduleOf k m) :=
  sameWords_keyExpansion _ _ fun i hi => by
    rw [keyWord_eq_keyByte, keyWord_eq_keyByte, h (4 * i) (by omega), h (4 * i + 1) (by omega), h (4 * i + 2) (by omega),
      h (4 * i + 3) (by omega)]

theorem sameWords_scheduleOf_of_below {k : Strength} {m m' : Memory} (h : ∀ a < msgBase, m'.read a = m.read a) :
    SameWords k.nr (scheduleOf k m') (scheduleOf k m) := by
  have hbase : keyBase = 0x020 ∧ msgBase = 0x080 := ⟨rfl, rfl⟩
  have hnk : k.nk ≤ 8 := by cases k <;> decide
  exact sameWords_scheduleOf fun j hj => h (keyBase + j) (by omega)

theorem Completed.read_below {d : Resolved} {s t : State} (h : Completed d s t) {a : Nat} (ha : a < msgBase) :
    t.mem.read a = s.mem.read a := h.outside a (.inl ha)

theorem Completed.msgBlock_beyond {d : Resolved} {s t : State} (h : Completed d s t) {b : Nat}
    (hb : blockCount s.len ≤ b) : msgBlock t.mem b = msgBlock s.mem b :=
  readBlock_congr fun c hc _ => h.outside c (.inr (by omega))

/-! ### Decryption after encryption (43_modes.md R246) -/

/-- Decrypting the results of an encryption gives the message back. -/
theorem resultBlock_resultBlock {op op' : Op} (hmode : op'.mode = op.mode) (henc : op.dir = .enc) (hdec : op'.dir = .dec)
    {w : Schedule} {nr : Nat} {m m' : Memory} (hiv : ivBlock m' = ivBlock m) {b : Nat}
    (h : ∀ c ≤ b, msgBlock m' c = resultBlock op w nr m c) : resultBlock op' w nr m' b = msgBlock m b := by
  by_cases hcbc : op.mode = .cbc
  · have hdecBlock : resultBlock op' w nr m' b = cbcDecBlock w nr m' b := by
      unfold resultBlock
      rw [hmode, hcbc, hdec]
    have hblock : ∀ c ≤ b, msgBlock m' c = cbcEncBlock w nr m c := fun c hc => by
      rw [h c hc]
      unfold resultBlock
      rw [hcbc, henc]
    rw [hdecBlock, cbcDecBlock, hblock b (Nat.le_refl b), hblock (b - 1) (Nat.sub_le b 1), cbcEncBlock_eq,
      invCipher_cipher, hiv, Block.xor_xor_cancel]
  · have hcbc' : op'.mode ≠ .cbc := hmode ▸ hcbc
    rw [resultBlock_of_not_cbc hcbc', h b (Nat.le_refl b), resultBlock_of_not_cbc hcbc, henc, hdec]
    exact invCipher_cipher w nr _

/-- `t` is `s` after a decrypting command that undid an encrypting one. -/
theorem read_eq_of_completed_twice {d d' : Resolved} {s t u : State} (hst : Completed d s t) (htu : Completed d' t u)
    (hstrength : d'.strength = d.strength) (hmode : d'.op.mode = d.op.mode) (henc : d.op.dir = .enc)
    (hdec : d'.op.dir = .dec) (a : Nat) : u.mem.read a = s.mem.read a := by
  obtain ⟨hlen, -⟩ := hst.registers
  have houtside := htu.outside
  have hresult := htu.result
  rw [hlen] at houtside hresult
  by_cases hout : a < msgBase ∨ msgBase + 16 * blockCount s.len ≤ a
  · rw [houtside a hout, hst.outside a hout]
  · obtain ⟨j, rfl⟩ : ∃ j, a = msgBase + j := ⟨a - msgBase, by omega⟩
    have hb : j / 16 < blockCount s.len := by omega
    have hsched : SameWords d.strength.nr (scheduleOf d.strength t.mem) (scheduleOf d.strength s.mem) :=
      sameWords_scheduleOf_of_below fun a ha => hst.read_below ha
    have hblock : msgBlock u.mem (j / 16) = msgBlock s.mem (j / 16) :=
      calc msgBlock u.mem (j / 16)
          = resultBlock d'.op (scheduleOf d.strength t.mem) d.strength.nr t.mem (j / 16) := by
            rw [hresult _ hb, hstrength]
        _ = resultBlock d'.op (scheduleOf d.strength s.mem) d.strength.nr t.mem (j / 16) :=
            resultBlock_congr hsched (fun _ => rfl) fun _ _ => rfl
        _ = msgBlock s.mem (j / 16) :=
            resultBlock_resultBlock hmode henc hdec (ivBlock_congr fun a ha => hst.read_below ha)
              fun c hc => hst.result c (by omega)
    have hbyte := msgByte_eq_of_msgBlock_eq (Nat.mod_lt j (by omega : 0 < 16)) hblock
    rwa [Nat.div_add_mod] at hbyte

/-- A completed command leaves a state in which the decrypting command of its mode is accepted. -/
theorem ready_of_completed {d d' : Resolved} {s t : State} (hst : Completed d s t) (hready : Ready d s)
    (hstrength : d'.strength = d.strength) (hmode : d'.op.mode = d.op.mode) (hmax : d'.maxLen = d.maxLen) :
    Ready d' t := by
  obtain ⟨hbusy, -⟩ := hst.succeeded
  obtain ⟨hlen, -, hkeyw, hivw, -⟩ := hst.registers
  obtain ⟨-, hkey, hiv, hpos, hle⟩ := hready
  rw [Ready, hstrength, hmode, hmax, hlen, hkeyw, hivw]
  exact ⟨hbusy, hkey, hiv, hpos, hle⟩

theorem RegistersKept.trans {s t u : State} (h : RegistersKept s t) (h' : RegistersKept t u) : RegistersKept s u := by
  obtain ⟨hlen, hirqEn, hkeyw, hivw, hinputs, hquiet, hresp, hfree⟩ := h
  obtain ⟨hlen', hirqEn', hkeyw', hivw', hinputs', hquiet', hresp', hfree'⟩ := h'
  exact ⟨hlen'.trans hlen, hirqEn'.trans hirqEn, hkeyw'.trans hkeyw, hivw'.trans hivw, hinputs'.trans hinputs,
    hquiet'.trans hquiet, hresp'.trans hresp, hfree'.trans hfree⟩

theorem RegistersKept.symm {s t : State} (h : RegistersKept s t) : RegistersKept t s := by
  obtain ⟨hlen, hirqEn, hkeyw, hivw, hinputs, hquiet, hresp, hfree⟩ := h
  exact ⟨hlen.symm, hirqEn.symm, hkeyw.symm, hivw.symm, hinputs.symm, hquiet.symm, hresp.symm, hfree.symm⟩

/-- The decrypting command of an encrypting one: the same strength, mode and largest LEN. -/
def Undoes (d d' : Resolved) : Prop :=
  d'.strength = d.strength ∧ d'.op.mode = d.op.mode ∧ d'.maxLen = d.maxLen ∧ d.op.dir = .enc ∧ d'.op.dir = .dec

theorem undoes_resolveMode (op op' : Op) {ksize : BitVec 2} {d : Resolved} (h : resolveMode op ksize = .command d)
    (hmode : op'.mode = op.mode) (henc : op.dir = .enc) (hdec : op'.dir = .dec) :
    ∃ d', resolveMode op' ksize = .command d' ∧ Undoes d d' := by
  cases hk : strengthOf ksize with
  | none => simp [resolveMode, hk] at h
  | some k =>
    rw [resolveMode_of_strengthOf hk, Resolution.command.injEq] at h
    subst h
    exact ⟨_, resolveMode_of_strengthOf hk op', rfl, hmode, rfl, henc, hdec⟩

theorem undoes_resolveBlk (op op' : Op) {k : Strength} {d : Resolved} (h : resolveBlk op k = .command d)
    (hmode : op'.mode = op.mode) (henc : op.dir = .enc) (hdec : op'.dir = .dec) :
    ∃ d', resolveBlk op' k = .command d' ∧ Undoes d d' := by
  rw [resolveBlk, Resolution.command.injEq] at h
  subst h
  exact ⟨_, rfl, rfl, hmode, rfl, henc, hdec⟩

/-! ### One flipped ciphertext bit (43_modes.md R248) -/

/-- A block whose ciphertext differs, with the same block before it, decrypts to another block. -/
theorem cbcDecBlock_ne {nr : Nat} {w w' : Schedule} {m m' : Memory} {b : Nat} (hw : SameWords nr w w')
    (hiv : ivBlock m = ivBlock m') (hmsg : msgBlock m b ≠ msgBlock m' b)
    (hprev : b ≠ 0 → msgBlock m (b - 1) = msgBlock m' (b - 1)) : cbcDecBlock w nr m b ≠ cbcDecBlock w' nr m' b := by
  have hin : (if b = 0 then ivBlock m else msgBlock m (b - 1)) = if b = 0 then ivBlock m' else msgBlock m' (b - 1) := by
    split
    next => exact hiv
    next hb => exact hprev hb
  intro h
  rw [cbcDecBlock, cbcDecBlock, hin, invCipher_congr hw] at h
  exact hmsg (invCipher_injective w' nr (Block.xor_right_cancel h))

/-- A byte of a decrypted block takes in the same byte of the ciphertext block before it. -/
theorem getD_bytes_cbcDecBlock_succ (w : Schedule) (nr : Nat) (m : Memory) (b : Nat) {n : Nat} (hn : n < 16) :
    (cbcDecBlock w nr m (b + 1)).bytes.getD n 0#8
      = (invCipher w nr (msgBlock m (b + 1))).bytes.getD n 0#8 ^^^ msgByte m (16 * b + n) := by
  rw [cbcDecBlock, if_neg (Nat.succ_ne_zero b), Nat.add_sub_cancel, getD_bytes_xor _ _ hn, msgByte_eq_getD m b hn]

theorem xor_bit_ne (x : Byte) {q : Nat} (hq : q < 8) : x ^^^ (1#8 <<< q) ≠ x := by
  intro h
  have hbit : (1#8 <<< q : Byte) = 0#8 := by simpa using h
  interval_cases q <;> exact absurd hbit (by decide)

/-! ### The internal storage (10_state.md R50) -/

/-- Two states are the same outside the internal storage when every other field is. -/
theorem sameOutside_of_fields {s t : State} (hregs : RegistersKept s t) (hmem : t.mem = s.mem) (hbusy : t.busy = s.busy)
    (hdone : t.done = s.done) (herr : t.err = s.err) (hcause : t.cause = s.cause) (hseq : t.seq = s.seq) :
    SameOutside s t := by
  obtain ⟨hlen, hirqEn, hkeyw, hivw, hinputs, hquiet, hresp, hfree⟩ := hregs
  rw [SameOutside, ← hmem, ← hlen, ← hirqEn, ← hbusy, ← hdone, ← herr, ← hcause, ← hkeyw, ← hivw, ← hseq, ← hinputs,
    ← hquiet, ← hresp, ← hfree]

theorem regValue_of_sameOutside {s t : State} (h : SameOutside s t) (r : Reg) : regValue t r = regValue s r := by
  rw [h]
  cases r <;> rfl

/-- The memory a command leaves is a function of the memory and LEN that it found. -/
theorem mem_command {d : Resolved} {s : State} (hready : Ready d s) (hmax : d.maxLen ≤ Config.maxLen)
    (hwait : HostWaits (commandPhases d.strength (blockCount s.len)) s) :
    (command (.command d) s).mem
      = storeBlocks d.op (resultBlock d.op (scheduleOf d.strength s.mem) d.strength.nr s.mem) (blockCount s.len)
          (firstBlock d.op (blockCount s.len)) s.mem := by
  rw [command_eq_runPhases hready hmax hwait]
  exact mem_runPhases_accept (s := s.clearOutcome) ((ready_iff d s).mp hready).2

/-- An accepted command that completes does not see the internal storage. -/
theorem sameOutside_command {d : Resolved} {s s' : State} (h : SameOutside s s') (hready : Ready d s)
    (hmax : d.maxLen ≤ Config.maxLen) (hwait : HostWaits (commandPhases d.strength (blockCount s.len)) s) :
    SameOutside (command (.command d) s) (command (.command d) s') := by
  have hready' : Ready d s' := by rw [h]; exact hready
  have hwait' : HostWaits (commandPhases d.strength (blockCount s'.len)) s' := by rw [h]; exact hwait
  have hsame : RegistersKept s s' := by rw [h]; exact ⟨rfl, rfl, rfl, rfl, rfl, rfl, rfl, rfl⟩
  have hmem : s'.mem = s.mem ∧ s'.len = s.len := by rw [h]; exact ⟨rfl, rfl⟩
  obtain ⟨⟨hbusy, hdone, herr, hcause, hseq⟩, hregs, -, -⟩ := command_completed hready hmax hwait
  obtain ⟨⟨hbusy', hdone', herr', hcause', hseq'⟩, hregs', -, -⟩ := command_completed hready' hmax hwait'
  refine sameOutside_of_fields (hregs.symm.trans (hsame.trans hregs')) ?_ (hbusy'.trans hbusy.symm)
    (hdone'.trans hdone.symm) (herr'.trans herr.symm) (hcause'.trans hcause.symm) (hseq'.trans hseq.symm)
  rw [mem_command hready' hmax hwait', mem_command hready hmax hwait, hmem.1, hmem.2]

theorem sameOutside_reject {s s' : State} (h : SameOutside s s') (c : Cause) :
    SameOutside (s.clearOutcome.reject c) (s'.clearOutcome.reject c) := by
  rw [h]
  rfl

end Sys2Proof.Machine

open Sys2Proof Sys2Proof.Machine

/-- Settles O18: the decrypting command is accepted where the encrypting one completed, and its results are the message. -/
theorem decryptAfterEncryptRestores : Obligations.DecryptAfterEncryptRestores := by
  intro ksize d s p hp hres hready hwait
  have hpair : ∃ d', p.2.resolve = .command d' ∧ Undoes d d' := by
    simp only [List.mem_cons, List.not_mem_nil, or_false] at hp
    obtain rfl | rfl | rfl | rfl | rfl := hp
    · exact undoes_resolveMode .ecbEnc .ecbDec hres rfl rfl rfl
    · exact undoes_resolveMode .cbcEnc .cbcDec hres rfl rfl rfl
    · exact undoes_resolveBlk .blkEnc128 .blkDec128 hres rfl rfl rfl
    · exact undoes_resolveBlk .blkEnc192 .blkDec192 hres rfl rfl rfl
    · exact undoes_resolveBlk .blkEnc256 .blkDec256 hres rfl rfl rfl
  obtain ⟨d', hres', hstrength, hmode, hmax, henc, hdec⟩ := hpair
  obtain ⟨t, ht, hst⟩ := exec_completed hres hready hwait
  obtain ⟨hlen, -, -, -, -, hquiet, -⟩ := id hst.registers
  have hwait' : HostWaits (commandPhases d'.strength (blockCount t.len)) t := by
    rwa [HostWaits, hstrength, hlen, hquiet]
  obtain ⟨u, hu, htu⟩ := exec_completed hres' (ready_of_completed hst hready hstrength hmode hmax) hwait'
  exact ⟨t, u, ht, hst.succeeded, hu, htu.succeeded, hst.registers.trans htu.registers,
    read_eq_of_completed_twice hst htu hstrength hmode henc hdec⟩

/-- Settles O20: results are congruent in the operands. -/
theorem onlyOperandsMatter : Obligations.OnlyOperandsMatter := by
  intro i d s s' hres hready hready' hsame hwait hwait'
  obtain ⟨hlen, hkey, hiv, hmsg⟩ := hsame
  obtain ⟨t, ht, hst⟩ := exec_completed hres hready hwait
  obtain ⟨t', ht', hst'⟩ := exec_completed hres hready' (by rwa [hlen])
  have hresult' := hst'.result
  rw [hlen] at hresult'
  refine ⟨t, t', ht, ht', fun j hj => ?_⟩
  have hb : j / 16 < blockCount s.len := by omega
  have hblock : msgBlock t'.mem (j / 16) = msgBlock t.mem (j / 16) := by
    rw [hresult' _ hb, hst.result _ hb]
    refine resultBlock_congr (sameWords_scheduleOf hkey) (fun hcbc => readBlock_congr fun c hlo hhi => ?_) fun c hc => ?_
    · have hbyte := hiv hcbc (c - ivBase) (by omega)
      rwa [ivByte, ivByte, Nat.add_sub_cancel' hlo] at hbyte
    · exact msgBlock_congr fun n hn => hmsg _ (by omega)
  have hbyte := msgByte_eq_of_msgBlock_eq (Nat.mod_lt j (by omega : 0 < 16)) hblock
  rwa [Nat.div_add_mod] at hbyte

/-- Settles O21: a rejection copies the rest of the state, and a completed command depends on memory and LEN. -/
theorem internalStateIsUnobservable : Obligations.InternalStateIsUnobservable := by
  intro i s s' hidle hsame hquiet
  obtain ⟨hb, -⟩ := hidle
  have hb' : s'.busy = false := by rw [hsame]; exact hb
  have hirq : irq s' = irq s := by rw [hsame]; rfl
  refine ⟨regValue_of_sameOutside hsame, hirq, _, _, exec_eq_command i s, exec_eq_command i s', ?_⟩
  cases hres : i.resolve with
  | reject c =>
    rw [command_reject hb, command_reject hb']
    exact sameOutside_reject hsame c
  | command d =>
    have hcheck : validate d s'.clearOutcome = validate d s.clearOutcome := by rw [hsame]; rfl
    by_cases hv : validate d s.clearOutcome = .none
    · exact sameOutside_command hsame ((ready_iff d s).mpr ⟨hb, hv⟩) (maxLen_le_of_resolve hres)
        fun n hn => by simp [hquiet] at hn
    · rw [command_invalid hb rfl hv, command_invalid hb' hcheck hv]
      exact sameOutside_reject hsame _

/-- Settles O19: a ciphertext block reaches its own result through InvCipher, which is injective, and the next one through
the exclusive-or. -/
theorem cbcBitErrorStaysInTwoBlocks : Obligations.CbcBitErrorStaysInTwoBlocks := by
  intro ksize k s s' i j q hk hready hwait hi hj hq hs' hflip
  obtain ⟨m', rfl⟩ : ∃ m', s' = { s with mem := m' } := ⟨s'.mem, hs'⟩
  obtain ⟨t, ht, hst⟩ :=
    exec_completed (i := .cbcDec ksize) (resolveMode_of_strengthOf hk .cbcDec) hready hwait
  obtain ⟨t', ht', hst'⟩ :=
    exec_completed (i := .cbcDec ksize) (s := { s with mem := m' }) (resolveMode_of_strengthOf hk .cbcDec) hready hwait
  have hresult : ∀ b < blockCount s.len, msgBlock t.mem b = cbcDecBlock (scheduleOf k s.mem) k.nr s.mem b := hst.result
  have hresult' : ∀ b < blockCount s.len, msgBlock t'.mem b = cbcDecBlock (scheduleOf k m') k.nr m' b := hst'.result
  dsimp only at hflip
  have hbelow : ∀ a < msgBase, m'.read a = s.mem.read a := fun a ha => by rw [hflip, if_neg (by omega)]
  have hsched : SameWords k.nr (scheduleOf k m') (scheduleOf k s.mem) := sameWords_scheduleOf_of_below hbelow
  have hiv : ivBlock m' = ivBlock s.mem := ivBlock_congr hbelow
  have hother (b : Nat) (hb : b ≠ i) : msgBlock m' b = msgBlock s.mem b :=
    readBlock_congr fun c _ _ => by rw [hflip, if_neg (by omega)]
  have hbyte (n : Nat) : msgByte m' (16 * i + n)
      = if n = j then msgByte s.mem (16 * i + n) ^^^ (1#8 <<< q) else msgByte s.mem (16 * i + n) := by
    simp only [msgByte, hflip, Nat.add_left_cancel_iff]
  refine ⟨t, t', ht, ht', fun b hb => ?far, ?own, fun n hn => ?next⟩
  case far =>
    by_cases hlt : b < blockCount s.len
    · rw [hresult b hlt, hresult' b hlt]
      exact cbcDecBlock_congr hsched hiv (hother b (by omega)) fun _ => hother (b - 1) (by omega)
    · rw [hst.msgBlock_beyond (Nat.not_lt.mp hlt), hst'.msgBlock_beyond (Nat.not_lt.mp hlt)]
      exact hother b (by omega)
  case own =>
    have hne : msgBlock m' i ≠ msgBlock s.mem i := fun h => by
      have hj := msgByte_eq_of_msgBlock_eq hj h
      rw [hbyte, if_pos rfl] at hj
      exact xor_bit_ne _ hq hj
    rw [hresult i (by omega), hresult' i (by omega)]
    exact cbcDecBlock_ne hsched hiv hne fun _ => hother (i - 1) (by omega)
  case next =>
    rw [msgByte_eq_getD t'.mem _ hn, msgByte_eq_getD t.mem _ hn, hresult (i + 1) hi, hresult' (i + 1) hi,
      getD_bytes_cbcDecBlock_succ _ _ _ _ hn, getD_bytes_cbcDecBlock_succ _ _ _ _ hn, invCipher_congr hsched,
      hother (i + 1) (by omega), hbyte]
    split
    · rw [BitVec.xor_assoc]
    · rfl

end
